-- ==== Sys2Proof/Word.lean ====
section
/-! DEFINITION. The widths of the block (00_scope.md R9) and the closed sets of names its instructions and
buffers use. All values are unsigned (R11); bit 0 is the least significant bit (R10). -/

namespace Sys2Proof

/-- A register, a bus data word, a command word or a request word (R9, R21, R68). -/
abbrev Word := BitVec 32

/-- A CRC value, a frame address or length, a converted pixel (R9). -/
abbrev Half := BitVec 16

/-- A buffer byte, a frame command, a pixel channel (R9). -/
abbrev Byte := BitVec 8

/-- A host bus byte offset (R9, R56). -/
abbrev Offset := BitVec 20

/-- The SIZE field of a request word (30_encoding.md R70): 1, 2 or 4 bytes, and the reserved value 3. -/
inductive AccessSize where
  | byte
  | half
  | word
  | reserved
  deriving DecidableEq, Repr

/-- The ORD field of a command word (30_encoding.md R72). -/
inductive PixelOrder where
  | rgb565
  | bgr565
  deriving DecidableEq, Repr

/-- The IFMT field of a command word (30_encoding.md R72). -/
inductive InputFormat where
  | rgb888
  | rgba8888
  deriving DecidableEq, Repr

/-- The five byte buffers (10_state.md R45). -/
inductive Buffer where
  | payload
  | tx
  | rx
  | pixin
  | pixout
  deriving DecidableEq, Repr

end Sys2Proof
end

