-- ==== Sys2Proof/Syntax.lean ====
section
/-! DEFINITION. The instructions: one constructor per row of spec/opcode_table.json, eight block commands
(30_encoding.md R73) and the two host bus transactions (R71). A command word no row matches (ILLEGAL,
40_command.md R89) is the outcome of decoding and has no constructor. -/

namespace Sys2Proof

inductive Instr where
  /-- NOP (40_command.md R88). -/
  | nop
  /-- CRC_CLEAR (41_crc.md R94). -/
  | crcClear
  /-- CRC_BYTE (41_crc.md R95). -/
  | crcByte
  /-- CRC_BUF (41_crc.md R97). -/
  | crcBuf
  /-- FRM_BUILD (42_frame.md R104). -/
  | frmBuild
  /-- FRM_PARSE (42_frame.md R107). -/
  | frmParse
  /-- PIX_CONV with its ORD bit (43_pixel.md R117). -/
  | pixConv (ord : PixelOrder)
  /-- PIX_BUF with its ORD and IFMT bits (43_pixel.md R119). -/
  | pixBuf (ord : PixelOrder) (ifmt : InputFormat)
  /-- BUS_READ with SIZE and OFF (20_memory.md R49). -/
  | busRead (size : AccessSize) (off : Offset)
  /-- BUS_WRITE with SIZE and OFF and the transaction's WDATA (20_memory.md R48, R49; log entry 12). -/
  | busWrite (size : AccessSize) (off : Offset) (wdata : Word)
  deriving DecidableEq, Repr

end Sys2Proof
end

