-- ==== Sys2Proof/WellFormed.lean ====
section
/-! DEFINITION. Which instructions are well formed. The types of the operands carry their widths, so that the
only operand value the encoding reserves is SIZE = 3 (30_encoding.md R70, R76). A request with it still
decodes and runs: it is refused with BusError (20_memory.md R50; log entry 13). -/

namespace Sys2Proof

/-- SIZE = 3 is reserved (30_encoding.md R70). -/
def AccessSize.wellFormed : AccessSize → Bool
  | .byte => true
  | .half => true
  | .word => true
  | .reserved => false

/-- No operand of the instruction holds a reserved value. -/
def Instr.wellFormed : Instr → Bool
  | .nop => true
  | .crcClear => true
  | .crcByte => true
  | .crcBuf => true
  | .frmBuild => true
  | .frmParse => true
  | .pixConv _ => true
  | .pixBuf _ _ => true
  | .busRead size _ => size.wellFormed
  | .busWrite size _ _ => size.wellFormed

end Sys2Proof
end

