-- ==== Sys2Proof/Decode.lean ====
section
/-! DEFINITION. The two formats (30_encoding.md R68), their decoders (R71, R74), total on every word and
rejecting by name, and after them the encoder (R70, R72, R78). Fields are taken out of a word here and nowhere
else. -/

namespace Sys2Proof

/-- Why a word decodes to no instruction. -/
inductive DecodeError where
  /-- A command word that no row of the opcode map matches (R74). The command ILLEGAL runs: STATUS.ERR = 1. -/
  | illegalCommandWord
  /-- A request word with RSV ≠ 0 (R71). The transaction is refused with BusError. -/
  | reservedRequestBits
  deriving DecidableEq, Repr

/-- An encoded object with its format: a command word, or a request word with its WDATA (R68, R69). -/
inductive CodeWord where
  | cmd (word : Word)
  | req (word : Word) (wdata : Word)
  deriving DecidableEq, Repr

/-! ### The command word (R72) -/

/-- OPC [7:0]. -/
def cmdOpcode (w : Word) : BitVec 8 := w.extractLsb' 0 8

/-- ORD [8]. -/
def cmdOrd (w : Word) : BitVec 1 := w.extractLsb' 8 1

/-- IFMT [9]. -/
def cmdIfmt (w : Word) : BitVec 1 := w.extractLsb' 9 1

/-- RSV [31:10]. -/
def cmdReserved (w : Word) : BitVec 22 := w.extractLsb' 10 22

/-- 0 = RGB565, 1 = BGR565 (R72). -/
def PixelOrder.ofBit (b : BitVec 1) : PixelOrder := if b = 0#1 then .rgb565 else .bgr565

/-- 0 = RGB565, 1 = BGR565 (R72). -/
def PixelOrder.bit : PixelOrder → BitVec 1
  | .rgb565 => 0#1
  | .bgr565 => 1#1

/-- 0 = RGB888, 1 = RGBA8888 (R72). -/
def InputFormat.ofBit (b : BitVec 1) : InputFormat := if b = 0#1 then .rgb888 else .rgba8888

/-- 0 = RGB888, 1 = RGBA8888 (R72). -/
def InputFormat.bit : InputFormat → BitVec 1
  | .rgb888 => 0#1
  | .rgba8888 => 1#1

/-- The instruction of an opcode whose ORD and IFMT bits are `ord` and `ifmt`, or none: OPC not in the map,
or a stray ORD or IFMT bit (R73, R74). -/
def opcodeInstr (opc : BitVec 8) (ord ifmt : BitVec 1) : Option Instr :=
  if opc = 0x21#8 then some (.pixBuf (.ofBit ord) (.ofBit ifmt))
  else if ifmt ≠ 0#1 then none
  else if opc = 0x20#8 then some (.pixConv (.ofBit ord))
  else if ord ≠ 0#1 then none
  else if opc = 0x00#8 then some .nop
  else if opc = 0x01#8 then some .crcClear
  else if opc = 0x02#8 then some .crcByte
  else if opc = 0x03#8 then some .crcBuf
  else if opc = 0x10#8 then some .frmBuild
  else if opc = 0x11#8 then some .frmParse
  else none

/-- Command decode (R74). -/
def decodeCommand (w : Word) : Except DecodeError Instr :=
  if cmdReserved w ≠ 0#22 then .error .illegalCommandWord
  else
    match opcodeInstr (cmdOpcode w) (cmdOrd w) (cmdIfmt w) with
    | some i => .ok i
    | none => .error .illegalCommandWord

/-! ### The request word (R70) -/

/-- OFF [19:0]. -/
def reqOffset (w : Word) : Offset := w.extractLsb' 0 20

/-- SIZE [21:20]. -/
def reqSize (w : Word) : BitVec 2 := w.extractLsb' 20 2

/-- WE [22]. -/
def reqWriteEnable (w : Word) : BitVec 1 := w.extractLsb' 22 1

/-- RSV [31:23]. -/
def reqReserved (w : Word) : BitVec 9 := w.extractLsb' 23 9

/-- 0 = 1 byte, 1 = 2 bytes, 2 = 4 bytes, 3 = reserved (R70). -/
def AccessSize.ofBits (b : BitVec 2) : AccessSize :=
  if b = 0#2 then .byte else if b = 1#2 then .half else if b = 2#2 then .word else .reserved

/-- 0 = 1 byte, 1 = 2 bytes, 2 = 4 bytes, 3 = reserved (R70). -/
def AccessSize.bits : AccessSize → BitVec 2
  | .byte => 0#2
  | .half => 1#2
  | .word => 2#2
  | .reserved => 3#2

/-- REQ decode (R71). WDATA is "ignored by a read" (R69). -/
def decodeRequest (req wdata : Word) : Except DecodeError Instr :=
  if reqReserved req ≠ 0#9 then .error .reservedRequestBits
  else if reqWriteEnable req = 0#1 then .ok (.busRead (.ofBits (reqSize req)) (reqOffset req))
  else .ok (.busWrite (.ofBits (reqSize req)) (reqOffset req) wdata)

/-- Decoding in either format. -/
def decode : CodeWord → Except DecodeError Instr
  | .cmd w => decodeCommand w
  | .req w wdata => decodeRequest w wdata

/-! ### The encoder -/

/-- A command word from its fields (R72), every reserved bit 0: `OPC | (ORD << 8) | (IFMT << 9)` (R79). -/
def commandWord (opc : BitVec 8) (ord ifmt : BitVec 1) : Word :=
  opc.setWidth 32 ||| (ord.setWidth 32 <<< 8) ||| (ifmt.setWidth 32 <<< 9)

/-- A request word from its fields (R70), every reserved bit 0: `(WE << 22) | (SIZE << 20) | OFF` (R78). -/
def requestWord (we : BitVec 1) (size : BitVec 2) (off : Offset) : Word :=
  (we.setWidth 32 <<< 22) ||| (size.setWidth 32 <<< 20) ||| off.setWidth 32

/-- The words of an instruction, written from R70, R72 and R73. -/
def encode : Instr → CodeWord
  | .nop => .cmd (commandWord 0x00#8 0#1 0#1)
  | .crcClear => .cmd (commandWord 0x01#8 0#1 0#1)
  | .crcByte => .cmd (commandWord 0x02#8 0#1 0#1)
  | .crcBuf => .cmd (commandWord 0x03#8 0#1 0#1)
  | .frmBuild => .cmd (commandWord 0x10#8 0#1 0#1)
  | .frmParse => .cmd (commandWord 0x11#8 0#1 0#1)
  | .pixConv ord => .cmd (commandWord 0x20#8 ord.bit 0#1)
  | .pixBuf ord ifmt => .cmd (commandWord 0x21#8 ord.bit ifmt.bit)
  | .busRead size off => .req (requestWord 0#1 size.bits off) 0#32
  | .busWrite size off wdata => .req (requestWord 1#1 size.bits off) wdata

/-! ### Table words (spec/opcode_table.json)

The table numbers two formats with the same 32 bits. A word that the opcode map matches is read as a command
word; every other word is read as a request word, with WDATA the 32 bits after it (log entry 7). -/

/-- The word's format and bits, as the table numbers them. -/
def tableCodeWord (nbits w : Nat) : CodeWord :=
  let bits := w % 2 ^ nbits
  let first := BitVec.ofNat 32 bits
  let second := BitVec.ofNat 32 (bits / 2 ^ 32)
  match decodeCommand first with
  | .ok _ => if second = 0#32 then .cmd first else .req first second
  | .error _ => .req first second

/-- The instruction the decoder reads from an instruction whose bits are `w`. -/
def decodeTableWord (nbits w : Nat) : Option Instr :=
  match decode (tableCodeWord nbits w) with
  | .ok i => some i
  | .error _ => none

end Sys2Proof
end

