-- ==== Sys2Proof/Config.lean ====
section
/-! DEFINITION. What is fixed for one instance of the block (the two implementation parameters,
00_scope.md R6, R7) and the free values of the spec (93_implementation_defined.md I3, I6): constants with no
body, so that nothing can be proved of their values. -/

namespace Sys2Proof

/-- The two variation points of the block (R2). -/
structure Config.Params where
  /-- `P_MAX_PAYLOAD` (R6). -/
  maxPayload : Nat
  /-- `P_PIXELS` (R7). -/
  pixels : Nat
  deriving DecidableEq, Repr

/-- "the value 1024 for this hardware" (R6) and "the value 20480 (= 160 × 128) for this hardware" (R7). -/
def Config.thisHardware : Config.Params := ⟨1024, 20480⟩

/-- What buffer byte `k` of buffer `b` holds after the reset numbered `epoch`: "an arbitrary value chosen
independently (a draw), never as 0" (70_reset_and_hazards.md R142, I3). FREE VALUE, log entry 2. -/
opaque Config.resetByte : (epoch : Nat) → (b : Buffer) → (k : Nat) → Byte

/-- RDATA of the transaction that the reset numbered `epoch` abandons: "any value" (R144, I6). FREE VALUE,
log entry 6. -/
opaque Config.abandonedRdata : (epoch : Nat) → Word

/-- Whether the transaction that the reset numbered `epoch` abandons is answered OKAY (else BUSERR): "any
value" (R144, I6). FREE VALUE, log entry 6. -/
opaque Config.abandonedOkay : (epoch : Nat) → Bool

end Sys2Proof
end

