-- ==== Sys2Proof/Machine/State.lean ====
section
/-! DEFINITION. The state: the 21 registers and the five byte buffers the spec gives the block (10_state.md R16),
and the model's own fields: the parameters, the number of resets so far, and the host's side of the bus. Plain
data. -/

namespace Sys2Proof.Machine

/-- The names of the 21 registers (10_state.md R21), in the order of their offsets. -/
inductive RegName where
  | cmd | status | crc | crcDin | crcLen | frmCmd | frmAddr | frmLen | frmCrc | txCount | rxCount
  | rxCmd | rxAddr | rxLen | rxPlen | rxCrc | rxCrcCalc | rxInfo | pixRgb | pix565 | pixinCount
  deriving DecidableEq, Repr

/-- The 21 registers, "every register is 32 bits wide" (10_state.md R21, R24 to R44). -/
structure Regs where
  cmd : Word
  status : Word
  crc : Word
  crcDin : Word
  crcLen : Word
  frmCmd : Word
  frmAddr : Word
  frmLen : Word
  frmCrc : Word
  txCount : Word
  rxCount : Word
  rxCmd : Word
  rxAddr : Word
  rxLen : Word
  rxPlen : Word
  rxCrc : Word
  rxCrcCalc : Word
  rxInfo : Word
  pixRgb : Word
  pix565 : Word
  pixinCount : Word
  deriving DecidableEq, Repr

/-- The bytes of one buffer that something has written since reset, as (index, byte) pairs with strictly
rising indices. An index that is not listed has no written value; it reads as a draw (log entry 2). -/
abbrev Memory := List Host.Cell

/-- The five byte buffers (10_state.md R45). -/
structure Buffers where
  payload : Memory
  tx : Memory
  rx : Memory
  pixin : Memory
  pixout : Memory
  deriving DecidableEq, Repr

/-- RESP (20_memory.md R48). -/
inductive Resp where
  | okay
  | buserr
  deriving DecidableEq, Repr

/-- What a transaction returns: (RDATA, RESP) (20_memory.md R48). -/
structure Response where
  rdata : Word
  resp : Resp
  deriving DecidableEq, Repr

/-- What reaches the block from outside (10_state.md R20, 70_reset_and_hazards.md R141, R144). -/
inductive HostEvent where
  /-- A bus transaction (REQ, WDATA) (30_encoding.md R69). -/
  | bus (req wdata : Word)
  /-- Reset applied while no transaction is in progress (R141). -/
  | reset
  /-- Reset applied while the transaction (REQ, WDATA) is in progress, which is abandoned (R144). -/
  | resetDuring (req wdata : Word)
  deriving DecidableEq, Repr

/-- The error codes of STATUS.ERR (60_exceptions.md R125). -/
inductive ErrorCode where
  | ok
  | illegalCmd
  | length
  | malformedFrame
  | byteCount
  deriving DecidableEq, Repr

/-- What an accepted offset names (20_memory.md R49): a register, or byte `k` of a buffer. -/
inductive Target where
  | register (r : RegName)
  | window (b : Buffer) (k : Nat)
  deriving DecidableEq, Repr

structure State where
  /-- The registers (10_state.md R21). -/
  regs : Regs
  /-- The buffers (10_state.md R45). -/
  bufs : Buffers
  /-- The parameters of this instance (10_state.md R17). The model's own field, log entry 1. -/
  params : Config.Params
  /-- How many resets there have been: it names the draws. The model's own field, log entry 3. -/
  epoch : Nat
  /-- The host's events still to come, oldest first. The model's own field, log entry 4. -/
  pending : List HostEvent
  /-- What the block has answered, newest first. The model's own field, log entry 4. -/
  responses : List Response
  deriving DecidableEq, Repr

/-- Why a step could stop the machine: never. Every command is total (40_command.md R82), and "BusError is a
value of the response, not a model fault" (92_eei_decisions.md D8). No one raises a fault; that is safe
(log entry 14). -/
inductive Fault where
  deriving DecidableEq, Repr

/-- Why an instruction could have no meaning. -/
inductive Refusal where
  /-- An instruction without a meaning yet, named as in spec/opcode_table.json. Raised by an arm of `exec`
  only, and no arm does: every row has its meaning. Safe. -/
  | notModelled (mnemonic : String)
  deriving DecidableEq, Repr

/-- Every register at 0x00000000 (10_state.md R21, 70_reset_and_hazards.md R141). -/
def Regs.atReset : Regs where
  cmd := 0
  status := 0
  crc := 0
  crcDin := 0
  crcLen := 0
  frmCmd := 0
  frmAddr := 0
  frmLen := 0
  frmCrc := 0
  txCount := 0
  rxCount := 0
  rxCmd := 0
  rxAddr := 0
  rxLen := 0
  rxPlen := 0
  rxCrc := 0
  rxCrcCalc := 0
  rxInfo := 0
  pixRgb := 0
  pix565 := 0
  pixinCount := 0

/-- No buffer byte written (70_reset_and_hazards.md R142). -/
def Buffers.atReset : Buffers := ⟨[], [], [], [], []⟩

/-- The machine right after reset (70_reset_and_hazards.md R141, R142), with the parameters of this hardware
(00_scope.md R6, R7) and no host event yet. -/
def State.reset : State where
  regs := Regs.atReset
  bufs := Buffers.atReset
  params := Config.thisHardware
  epoch := 0
  pending := []
  responses := []

end Sys2Proof.Machine
end

