-- ==== Sys2Proof/Machine/Operands.lean ====
section
/-! DEFINITION. The tables of the register map (10_state.md R21) and of the windows (20_memory.md R57), the field
and byte-order helpers, and every operand the spec's rules assemble (30_encoding.md R75). -/

namespace Sys2Proof.Machine

/-! ### The register map (10_state.md R21) -/

/-- Every register, in the order of the map. -/
def RegName.all : List RegName :=
  [.cmd, .status, .crc, .crcDin, .crcLen, .frmCmd, .frmAddr, .frmLen, .frmCrc, .txCount, .rxCount,
   .rxCmd, .rxAddr, .rxLen, .rxPlen, .rxCrc, .rxCrcCalc, .rxInfo, .pixRgb, .pix565, .pixinCount]

/-- The byte offset of a register (R21). -/
def RegName.offset : RegName → Nat
  | .cmd => 0x00
  | .status => 0x04
  | .crc => 0x08
  | .crcDin => 0x0C
  | .crcLen => 0x10
  | .frmCmd => 0x14
  | .frmAddr => 0x18
  | .frmLen => 0x1C
  | .frmCrc => 0x20
  | .txCount => 0x24
  | .rxCount => 0x28
  | .rxCmd => 0x2C
  | .rxAddr => 0x30
  | .rxLen => 0x34
  | .rxPlen => 0x38
  | .rxCrc => 0x3C
  | .rxCrcCalc => 0x40
  | .rxInfo => 0x44
  | .pixRgb => 0x48
  | .pix565 => 0x4C
  | .pixinCount => 0x50

/-- The access column of R21: RO registers (R23). -/
def RegName.readOnly : RegName → Bool
  | .cmd | .crcDin | .crcLen | .frmCmd | .frmAddr | .frmLen | .rxCount | .pixRgb | .pixinCount => false
  | .status | .crc | .frmCrc | .txCount | .rxCmd | .rxAddr | .rxLen | .rxPlen | .rxCrc | .rxCrcCalc
  | .rxInfo | .pix565 => true

/-- The bits of a register that hold a field (R21): the writable mask of an RW register, the field of an RO
one. Every other bit is reserved and reads as 0 (R22). -/
def RegName.fieldMask : RegName → Word
  | .cmd => 0xFFFFFFFF#32
  | .status => 0x0000000F#32
  | .crc => 0x0000FFFF#32
  | .crcDin => 0x000000FF#32
  | .crcLen => 0x0000FFFF#32
  | .frmCmd => 0x000000FF#32
  | .frmAddr => 0x0000FFFF#32
  | .frmLen => 0x0000FFFF#32
  | .frmCrc => 0x0000FFFF#32
  | .txCount => 0x0001FFFF#32
  | .rxCount => 0x0001FFFF#32
  | .rxCmd => 0x000000FF#32
  | .rxAddr => 0x0000FFFF#32
  | .rxLen => 0x0000FFFF#32
  | .rxPlen => 0x0000FFFF#32
  | .rxCrc => 0x0000FFFF#32
  | .rxCrcCalc => 0x0000FFFF#32
  | .rxInfo => 0x00000007#32
  | .pixRgb => 0x00FFFFFF#32
  | .pix565 => 0x0000FFFF#32
  | .pixinCount => 0x0003FFFF#32

/-- The register at an offset of the register region, if there is one (20_memory.md R49, R56). -/
def registerAt (off : Nat) : Option RegName :=
  RegName.all.find? fun r => r.offset == off

/-! ### The windows (20_memory.md R57) -/

/-- Every buffer, in the order of the windows. -/
def bufferList : List Buffer := [.payload, .tx, .rx, .pixin, .pixout]

/-- The base of a buffer's window (R57). -/
def windowBase : Buffer → Nat
  | .payload => 0x10000
  | .tx => 0x20000
  | .rx => 0x30000
  | .pixin => 0x40000
  | .pixout => 0x60000

/-- The aperture size of a buffer's window (R57). -/
def windowAperture : Buffer → Nat
  | .payload => 0x10000
  | .tx => 0x10000
  | .rx => 0x10000
  | .pixin => 0x20000
  | .pixout => 0x10000

/-- The capacity of a buffer in bytes (R57, 00_scope.md R8). -/
def capacity (p : Config.Params) : Buffer → Nat
  | .payload => p.maxPayload
  | .tx => p.maxPayload + 8
  | .rx => p.maxPayload + 8
  | .pixin => 4 * p.pixels
  | .pixout => 2 * p.pixels

/-- The host-access column of R57: "A write to TX or PIXOUT is refused with BusError". -/
def windowReadOnly : Buffer → Bool
  | .payload => false
  | .tx => true
  | .rx => false
  | .pixin => false
  | .pixout => true

/-- The window whose aperture holds an offset, if there is one (20_memory.md R49, R56). -/
def windowAt (off : Nat) : Option Buffer :=
  bufferList.find? fun b => decide (windowBase b ≤ off ∧ off < windowBase b + windowAperture b)

/-- The bytes an access moves, `n <- 1 << SIZE` (20_memory.md R49, R50). -/
def accessBytes (size : AccessSize) : Nat := 1 <<< size.bits.toNat

/-- What a request's SIZE and OFF name when no check of R49 before its WE step fails, and none when one does
(then the transaction is refused with BusError). -/
def busTarget (p : Config.Params) (size : AccessSize) (off : Nat) : Option Target :=
  if size = .reserved then none
  else if off % accessBytes size ≠ 0 then none
  else if off ≤ 0x000FF then
    if accessBytes size ≠ 4 then none else (registerAt off).map Target.register
  else
    match windowAt off with
    | none => none
    | some b =>
      if off - windowBase b + accessBytes size > capacity p b then none
      else some (.window b (off - windowBase b))

/-- Whether a write to a target is refused with BusError (R49: "REG_at(OFF) is RO", "W is RO"). -/
def Target.readOnly : Target → Bool
  | .register r => r.readOnly
  | .window b _ => windowReadOnly b

/-! ### Bytes of a value -/

/-- Bits [15:8]. -/
def highByte (h : Half) : Byte := h.extractLsb' 8 8

/-- Bits [7:0]. -/
def lowByte (h : Half) : Byte := h.extractLsb' 0 8

/-- `{h, l} = h×256 + l` (00_scope.md R11): the big-endian pairs of a frame (42_frame.md R102). -/
def pair (h l : Byte) : Half := h ++ l

/-- Bus lanes of a read: `W[k] | W[k+1] << 8 | ...`, zero-extended (20_memory.md R52, R53). -/
def wordOfBytes : List Byte → Word
  | [] => 0#32
  | b :: bs => b.setWidth 32 ||| (wordOfBytes bs <<< 8)

/-- Bus lanes of a write of `n` bytes: byte j is `WDATA[8*j+7 : 8*j]` (20_memory.md R49, R52). -/
def bytesOfWord : Nat → Word → List Byte
  | 0, _ => []
  | n + 1, w => w.extractLsb' 0 8 :: bytesOfWord n (w >>> 8)

/-! ### Reading a register -/

/-- The register of a name. -/
def Regs.get (g : Regs) : RegName → Word
  | .cmd => g.cmd
  | .status => g.status
  | .crc => g.crc
  | .crcDin => g.crcDin
  | .crcLen => g.crcLen
  | .frmCmd => g.frmCmd
  | .frmAddr => g.frmAddr
  | .frmLen => g.frmLen
  | .frmCrc => g.frmCrc
  | .txCount => g.txCount
  | .rxCount => g.rxCount
  | .rxCmd => g.rxCmd
  | .rxAddr => g.rxAddr
  | .rxLen => g.rxLen
  | .rxPlen => g.rxPlen
  | .rxCrc => g.rxCrc
  | .rxCrcCalc => g.rxCrcCalc
  | .rxInfo => g.rxInfo
  | .pixRgb => g.pixRgb
  | .pix565 => g.pix565
  | .pixinCount => g.pixinCount

/-- The stored word of a register: `REG` of the spec's pseudocode (00_scope.md R12). -/
def State.reg (s : State) (r : RegName) : Word := s.regs.get r

/-- What a host read of a register returns: "the register's 32-bit value with reserved bits 0"
(20_memory.md R55, 10_state.md R22; log entry 11). -/
def State.busReg (s : State) (r : RegName) : Word := s.reg r &&& r.fieldMask

/-! ### Operand assembly (30_encoding.md R75) -/

/-- CRC[15:0] (10_state.md R26). -/
def State.crcValue (s : State) : Half := (s.reg .crc).extractLsb' 0 16

/-- CRC_DIN[7:0] (R27). -/
def State.crcDinByte (s : State) : Byte := (s.reg .crcDin).extractLsb' 0 8

/-- CRC_LEN[15:0] as a number (R28, 40_command.md R153). -/
def State.crcLenCount (s : State) : Nat := ((s.reg .crcLen).extractLsb' 0 16).toNat

/-- FRM_CMD[7:0] (R29). -/
def State.frmCmdByte (s : State) : Byte := (s.reg .frmCmd).extractLsb' 0 8

/-- FRM_ADDR[15:0] (R30). -/
def State.frmAddrHalf (s : State) : Half := (s.reg .frmAddr).extractLsb' 0 16

/-- FRM_LEN[15:0] as a number (R31, 40_command.md R153). -/
def State.frmLenCount (s : State) : Nat := ((s.reg .frmLen).extractLsb' 0 16).toNat

/-- RX_COUNT[16:0] as a number (R34, 40_command.md R153). -/
def State.rxCountCount (s : State) : Nat := ((s.reg .rxCount).extractLsb' 0 17).toNat

/-- PIX_RGB[23:16] (R42). -/
def State.pixRed (s : State) : Byte := (s.reg .pixRgb).extractLsb' 16 8

/-- PIX_RGB[15:8] (R42). -/
def State.pixGreen (s : State) : Byte := (s.reg .pixRgb).extractLsb' 8 8

/-- PIX_RGB[7:0] (R42). -/
def State.pixBlue (s : State) : Byte := (s.reg .pixRgb).extractLsb' 0 8

/-- PIXIN_COUNT[17:0] as a number (R44, 40_command.md R153). -/
def State.pixinCountCount (s : State) : Nat := ((s.reg .pixinCount).extractLsb' 0 18).toNat

/-- Bytes per input pixel, bpp (43_pixel.md R119, R120). -/
def bytesPerPixel : InputFormat → Nat
  | .rgb888 => 3
  | .rgba8888 => 4

end Sys2Proof.Machine
end

