-- ==== Sys2Proof/Machine/Flags.lean ====
section
/-! DEFINITION. Every flag the spec gives the block (10_state.md R46): STATUS.ERR (R25, 60_exceptions.md R125) and
RX_INFO's TRUNC, CRC_PRESENT and CRC_MATCH (10_state.md R41, 42_frame.md R107). There are no condition codes,
carries or overflow flags (R46, 00_scope.md R11). -/

namespace Sys2Proof.Machine

/-- The number of an error code (60_exceptions.md R125). -/
def ErrorCode.number : ErrorCode → BitVec 4
  | .ok => 0#4
  | .illegalCmd => 1#4
  | .length => 2#4
  | .malformedFrame => 3#4
  | .byteCount => 4#4

/-- The STATUS word of an error code: ERR [3:0], reserved bits 0 (10_state.md R25). -/
def ErrorCode.statusWord (e : ErrorCode) : Word := e.number.setWidth 32

/-- STATUS.ERR (10_state.md R25). -/
def State.err (s : State) : BitVec 4 := (s.reg .status).extractLsb' 0 4

/-- TRUNC: `m < 6 + L`, fewer payload bytes than declared (42_frame.md R107, 10_state.md R41). -/
def frameTruncated (m len : Nat) : Bool := decide (m < 6 + len)

/-- CRC_PRESENT: `m >= 8 + L` (42_frame.md R107, 10_state.md R41). -/
def frameCrcPresent (m len : Nat) : Bool := decide (8 + len ≤ m)

/-- CRC_MATCH: `present and (rcrc = calc)` (42_frame.md R107, 10_state.md R41). -/
def frameCrcMatch (present : Bool) (rcrc ccalc : Half) : Bool := present && decide (rcrc = ccalc)

/-- One bit of a flag. -/
def flagBit (b : Bool) : Word := if b then 1#32 else 0#32

/-- RX_INFO: `(match << 2) | (present << 1) | trunc` (42_frame.md R107). -/
def rxInfoWord (trunc present matched : Bool) : Word :=
  (flagBit matched <<< 2) ||| (flagBit present <<< 1) ||| flagBit trunc

/-- RX_INFO.TRUNC (10_state.md R41). -/
def State.infoTrunc (s : State) : Bool := (s.reg .rxInfo).getLsbD 0

/-- RX_INFO.CRC_PRESENT (10_state.md R41). -/
def State.infoCrcPresent (s : State) : Bool := (s.reg .rxInfo).getLsbD 1

/-- RX_INFO.CRC_MATCH (10_state.md R41). -/
def State.infoCrcMatch (s : State) : Bool := (s.reg .rxInfo).getLsbD 2

end Sys2Proof.Machine
end

