-- ==== Sys2Proof/Machine/Ops.lean ====
section
/-! DEFINITION. The named operations over buffers, registers and the bus, the two ways a command or a transaction
ends in an error (60_exceptions.md R124), and reset. -/

namespace Sys2Proof.Machine

/-! ### One buffer's memory -/

/-- What an index that no entry lists holds: no written value (log entry 2). -/
def Memory.unlisted : Option Byte := none

/-- The byte last written at an index. -/
def Memory.written : Memory → Nat → Option Byte
  | [], _ => Memory.unlisted
  | (a, b) :: m, k => if a = k then some b else Memory.written m k

/-- The cells that hold `bs` at the indices from `k` on. -/
def Memory.cells : Nat → List Byte → Memory
  | _, [] => []
  | k, b :: bs => (k, b) :: Memory.cells (k + 1) bs

/-- Store `bs` at the indices from `k` on; every other index keeps what it holds. -/
def Memory.store (m : Memory) (k : Nat) (bs : List Byte) : Memory :=
  (m.filter fun c => decide (c.1 < k)) ++
    (Memory.cells k bs ++ m.filter fun c => decide (k + bs.length ≤ c.1))

/-- The canonical form: strictly rising indices, and no entry equal to what an unlisted index holds. -/
abbrev Memory.wf (m : Memory) : Prop :=
  m.Pairwise (fun c d => c.1 < d.1) ∧ ∀ c ∈ m, some c.2 ≠ Memory.unlisted

/-- Every written index lies below the buffer's capacity (20_memory.md R57). -/
abbrev Memory.below (m : Memory) (cap : Nat) : Prop := ∀ c ∈ m, c.1 < cap

/-! ### The buffers -/

/-- The memory of a buffer. -/
def Buffers.get (u : Buffers) : Buffer → Memory
  | .payload => u.payload
  | .tx => u.tx
  | .rx => u.rx
  | .pixin => u.pixin
  | .pixout => u.pixout

/-- The buffers with one replaced. -/
def Buffers.set (u : Buffers) (b : Buffer) (m : Memory) : Buffers :=
  match b with
  | .payload => { u with payload := m }
  | .tx => { u with tx := m }
  | .rx => { u with rx := m }
  | .pixin => { u with pixin := m }
  | .pixout => { u with pixout := m }

/-- `BUF[k]` (00_scope.md R12): "whatever the host or a command last wrote there, or its unspecified reset
content" (20_memory.md R58). -/
def State.byteAt (s : State) (b : Buffer) (k : Nat) : Byte :=
  ((s.bufs.get b).written k).getD (Config.resetByte s.epoch b k)

/-- `BUF[k .. k+n-1]` (00_scope.md R12). -/
def State.bytesAt (s : State) (b : Buffer) (k n : Nat) : List Byte :=
  (List.range n).map fun j => s.byteAt b (k + j)

/-- `BUF[k+j] <- bs[j]` for every byte of `bs` (00_scope.md R12). -/
def State.storeBytes (s : State) (b : Buffer) (k : Nat) (bs : List Byte) : State :=
  { s with bufs := s.bufs.set b ((s.bufs.get b).store k bs) }

/-! ### The registers -/

/-- The registers with one replaced. -/
def Regs.set (g : Regs) (r : RegName) (v : Word) : Regs :=
  match r with
  | .cmd => { g with cmd := v }
  | .status => { g with status := v }
  | .crc => { g with crc := v }
  | .crcDin => { g with crcDin := v }
  | .crcLen => { g with crcLen := v }
  | .frmCmd => { g with frmCmd := v }
  | .frmAddr => { g with frmAddr := v }
  | .frmLen => { g with frmLen := v }
  | .frmCrc => { g with frmCrc := v }
  | .txCount => { g with txCount := v }
  | .rxCount => { g with rxCount := v }
  | .rxCmd => { g with rxCmd := v }
  | .rxAddr => { g with rxAddr := v }
  | .rxLen => { g with rxLen := v }
  | .rxPlen => { g with rxPlen := v }
  | .rxCrc => { g with rxCrc := v }
  | .rxCrcCalc => { g with rxCrcCalc := v }
  | .rxInfo => { g with rxInfo := v }
  | .pixRgb => { g with pixRgb := v }
  | .pix565 => { g with pix565 := v }
  | .pixinCount => { g with pixinCount := v }

/-- `REG <- v` of a command (00_scope.md R12). -/
def State.setReg (s : State) (r : RegName) (v : Word) : State :=
  { s with regs := s.regs.set r v }

/-- Several `REG <- v` of a command, in order (00_scope.md R12). -/
def State.setRegs (s : State) (l : List (RegName × Word)) : State :=
  { s with regs := l.foldl (fun g e => g.set e.1 e.2) s.regs }

/-- `REG_at(OFF) <- WDATA & writable_mask(OFF)` (20_memory.md R49, 10_state.md R22). -/
def State.hostWriteReg (s : State) (r : RegName) (wdata : Word) : State :=
  s.setReg r (wdata &&& r.fieldMask)

/-! ### How a command ends -/

/-- The last effect of a command that succeeds: STATUS.ERR = 0 (40_command.md R86). -/
def succeed (s : State) : State := s.setReg .status ErrorCode.ok.statusWord

/-- `raise Error(code)`: STATUS.ERR <- code, and no other register or buffer byte changes (60_exceptions.md
R126). There is no trap: nothing is saved and nothing is returned to (R133, R134). -/
def raiseError (e : ErrorCode) (s : State) : State := s.setReg .status e.statusWord

/-! ### The host's side of the bus -/

/-- The state with another list of host events to come. -/
def State.withPending (s : State) (events : List HostEvent) : State := { s with pending := events }

/-! ### How a transaction ends -/

/-- The transaction returns (RDATA, RESP) (20_memory.md R48). -/
def State.respond (s : State) (r : Response) : State := { s with responses := r :: s.responses }

/-- `return (v, OKAY)` (20_memory.md R49). -/
def returnOkay (v : Word) (s : State) : State := s.respond ⟨v, .okay⟩

/-- `raise BusError`: returns (0, BUSERR) and changes no register and no buffer byte (60_exceptions.md R131). -/
def busError (s : State) : State := s.respond ⟨0#32, .buserr⟩

/-! ### Reset -/

/-- Reset (70_reset_and_hazards.md R141, R142): every register 0, every buffer byte a new draw. The parameters
and the host's side of the bus are no part of the block and stay. -/
def applyReset (s : State) : State :=
  { s with regs := Regs.atReset, bufs := Buffers.atReset, epoch := s.epoch + 1 }

/-- Reset during a transaction (70_reset_and_hazards.md R144): the transaction is abandoned, it "returns no
response the host may rely on" (any value, I6), and the state is the reset state. -/
def abandonTransaction (s : State) : State :=
  (applyReset s).respond
    ⟨Config.abandonedRdata (s.epoch + 1), if Config.abandonedOkay (s.epoch + 1) then .okay else .buserr⟩

end Sys2Proof.Machine
end

