-- ==== Sys2Proof/Machine/Control.lean ====
section
/-! DEFINITION. The control family (40_command.md): NOP, and ILLEGAL, the outcome of a command word that no row of
the opcode map matches. -/

namespace Sys2Proof.Machine

/-- exec_NOP (R88). -/
def runNop (s : State) : State := succeed s

/-- exec_ILLEGAL (R89). -/
def runIllegal (s : State) : State := raiseError .illegalCmd s

/-- The meaning of NOP. -/
def execNop (s : State) : Host.Outcome State Fault Refusal := .next (runNop s)

end Sys2Proof.Machine
end

