-- ==== Sys2Proof/Machine/Crc.lean ====
section
/-! DEFINITION. The CRC function (41_crc.md R92, R93) and the CRC family: CRC_CLEAR, CRC_BYTE, CRC_BUF. -/

namespace Sys2Proof.Machine

/-- One shift of `crc_step`: bit 15 chooses whether 0x1021 is added to `trunc_16(c << 1)` (R93). -/
def crcShift (c : Half) : Half :=
  if c.getLsbD 15 then (c <<< 1) ^^^ 0x1021#16 else c <<< 1

/-- `n` shifts (R93). -/
def crcShifts : Nat → Half → Half
  | 0, c => c
  | n + 1, c => crcShifts n (crcShift c)

/-- `crc_step(c, b)`: the byte enters at bits 15..8, then 8 shifts (R93). -/
def crcStep (c : Half) (b : Byte) : Half := crcShifts 8 (c ^^^ (b.setWidth 16 <<< 8))

/-- `crc_step` for each byte in order, from `c` (R96, R97). -/
def crcFrom (c : Half) (bs : List Byte) : Half := bs.foldl crcStep c

/-- `crc16`: from the initial value 0x0000, with no final XOR (R93). -/
def crc16 (bs : List Byte) : Half := crcFrom 0x0000#16 bs

/-- exec_CRC_CLEAR (R94). -/
def runCrcClear (s : State) : State := succeed (s.setReg .crc 0x00000000#32)

/-- exec_CRC_BYTE (R95). -/
def runCrcByte (s : State) : State :=
  succeed (s.setReg .crc ((crcStep s.crcValue s.crcDinByte).setWidth 32))

/-- exec_CRC_BUF (R97). -/
def runCrcBuf (s : State) : State :=
  if s.params.maxPayload < s.crcLenCount then raiseError .length s
  else succeed (s.setReg .crc ((crcFrom s.crcValue (s.bytesAt .payload 0 s.crcLenCount)).setWidth 32))

/-- The meaning of CRC_CLEAR. -/
def execCrcClear (s : State) : Host.Outcome State Fault Refusal := .next (runCrcClear s)

/-- The meaning of CRC_BYTE. -/
def execCrcByte (s : State) : Host.Outcome State Fault Refusal := .next (runCrcByte s)

/-- The meaning of CRC_BUF. -/
def execCrcBuf (s : State) : Host.Outcome State Fault Refusal := .next (runCrcBuf s)

end Sys2Proof.Machine
end

