-- ==== Sys2Proof/Machine/Frame.lean ====
section
/-! DEFINITION. The A5 frame (42_frame.md R102, R103) and the frame codec family: FRM_BUILD, FRM_PARSE. -/

namespace Sys2Proof.Machine

/-- The start marker (R101, R102). -/
def frameMarker : Byte := 0xA5#8

/-- The bytes a frame's CRC covers, in wire order: command, address, length, payload (R103). -/
def frameCovered (cmd : Byte) (addr : Half) (payload : List Byte) : List Byte :=
  [cmd, highByte addr, lowByte addr, highByte (BitVec.ofNat 16 payload.length),
    lowByte (BitVec.ofNat 16 payload.length)] ++ payload

/-- The CRC of a frame (R103). -/
def frameCrc (cmd : Byte) (addr : Half) (payload : List Byte) : Half :=
  crc16 (frameCovered cmd addr payload)

/-- The bytes of a frame, from the marker to crc_lo (R102). -/
def frameBytes (cmd : Byte) (addr : Half) (payload : List Byte) : List Byte :=
  (frameMarker :: frameCovered cmd addr payload) ++
    [highByte (frameCrc cmd addr payload), lowByte (frameCrc cmd addr payload)]

/-- PAYLOAD[0 .. LEN-1], the payload FRM_BUILD frames (R104). -/
def State.framePayload (s : State) : List Byte := s.bytesAt .payload 0 s.frmLenCount

/-- exec_FRM_BUILD (R104). -/
def runFrmBuild (s : State) : State :=
  if s.params.maxPayload < s.frmLenCount then raiseError .length s
  else
    let frame := frameBytes s.frmCmdByte s.frmAddrHalf s.framePayload
    let k := frameCrc s.frmCmdByte s.frmAddrHalf s.framePayload
    succeed
      ((s.storeBytes .tx 0 frame).setRegs
        [(.txCount, BitVec.ofNat 32 (s.frmLenCount + 8)), (.frmCrc, k.setWidth 32)])

/-- The declared length `{RX[4], RX[5]}` (R107). -/
def State.declaredLen (s : State) : Half := pair (s.byteAt .rx 4) (s.byteAt .rx 5)

/-- `m < 6 + L` (R107). -/
def State.parseTrunc (s : State) : Bool := frameTruncated s.rxCountCount s.declaredLen.toNat

/-- `m >= 8 + L` (R107). -/
def State.parsePresent (s : State) : Bool := frameCrcPresent s.rxCountCount s.declaredLen.toNat

/-- The number of payload bytes present (R107). -/
def State.parsePlen (s : State) : Nat :=
  if s.parseTrunc then s.rxCountCount - 6 else s.declaredLen.toNat

/-- The received CRC, 0x0000 when either of its bytes is missing (R107). -/
def State.parseRcrc (s : State) : Half :=
  if s.parsePresent then
    pair (s.byteAt .rx (6 + s.declaredLen.toNat)) (s.byteAt .rx (7 + s.declaredLen.toNat))
  else 0x0000#16

/-- The computed CRC over RX[1 .. 5+L], 0x0000 when the payload is truncated (R107). -/
def State.parseCalc (s : State) : Half :=
  if s.parseTrunc then 0x0000#16 else crc16 (s.bytesAt .rx 1 (5 + s.declaredLen.toNat))

/-- `present and (rcrc = calc)` (R107). -/
def State.parseMatch (s : State) : Bool := frameCrcMatch s.parsePresent s.parseRcrc s.parseCalc

/-- The result registers of a successful parse (R107). -/
def writeParsed (s : State) : State :=
  s.setRegs
    [(.rxCmd, (s.byteAt .rx 1).setWidth 32),
     (.rxAddr, (pair (s.byteAt .rx 2) (s.byteAt .rx 3)).setWidth 32),
     (.rxLen, s.declaredLen.setWidth 32),
     (.rxPlen, BitVec.ofNat 32 s.parsePlen),
     (.rxCrc, s.parseRcrc.setWidth 32),
     (.rxCrcCalc, s.parseCalc.setWidth 32),
     (.rxInfo, rxInfoWord s.parseTrunc s.parsePresent s.parseMatch)]

/-- exec_FRM_PARSE (R107), its checks in the order of 60_exceptions.md R129. -/
def runFrmParse (s : State) : State :=
  if capacity s.params .rx < s.rxCountCount then raiseError .length s
  else if s.rxCountCount < 6 then raiseError .malformedFrame s
  else if s.byteAt .rx 0 ≠ frameMarker then raiseError .malformedFrame s
  else succeed (writeParsed s)

/-- The meaning of FRM_BUILD. -/
def execFrmBuild (s : State) : Host.Outcome State Fault Refusal := .next (runFrmBuild s)

/-- The meaning of FRM_PARSE. -/
def execFrmParse (s : State) : Host.Outcome State Fault Refusal := .next (runFrmParse s)

end Sys2Proof.Machine
end

