-- ==== Sys2Proof/Machine/Pixel.lean ====
section
/-! DEFINITION. The 5:6:5 conversion (43_pixel.md R115, R116) and the pixel family: PIX_CONV, PIX_BUF. -/

namespace Sys2Proof.Machine

/-- `(hi5 << 11) | (g6 << 5) | lo5`: the field places common to both orders (R115, R116). -/
def pack565 (hi5 g6 lo5 : Half) : Half := (hi5 <<< 11) ||| (g6 <<< 5) ||| lo5

/-- `to565(r, g, b, d)` (R115). -/
def to565 (r g b : Byte) (ord : PixelOrder) : Half :=
  let r5 := (r >>> 3).setWidth 16
  let g6 := (g >>> 2).setWidth 16
  let b5 := (b >>> 3).setWidth 16
  match ord with
  | .rgb565 => pack565 r5 g6 b5
  | .bgr565 => pack565 b5 g6 r5

/-- The output pixel of input pixel `i`: red, green and blue at the first three bytes from `bpp × i` (R119,
R120, R121). -/
def State.lanePixel (s : State) (ord : PixelOrder) (ifmt : InputFormat) (i : Nat) : Half :=
  to565 (s.byteAt .pixin (bytesPerPixel ifmt * i)) (s.byteAt .pixin (bytesPerPixel ifmt * i + 1))
    (s.byteAt .pixin (bytesPerPixel ifmt * i + 2)) ord

/-- The two stored bytes of a pixel, low byte first (R118). -/
def pixelBytes (v : Half) : List Byte := [lowByte v, highByte v]

/-- All output bytes, lane by lane (R119). -/
def State.convertedBytes (s : State) (ord : PixelOrder) (ifmt : InputFormat) : List Byte :=
  (List.range s.params.pixels).flatMap fun i => pixelBytes (s.lanePixel ord ifmt i)

/-- exec_PIX_CONV (R117). -/
def runPixConv (ord : PixelOrder) (s : State) : State :=
  succeed (s.setReg .pix565 ((to565 s.pixRed s.pixGreen s.pixBlue ord).setWidth 32))

/-- exec_PIX_BUF (R119). -/
def runPixBuf (ord : PixelOrder) (ifmt : InputFormat) (s : State) : State :=
  if s.pixinCountCount ≠ s.params.pixels * bytesPerPixel ifmt then raiseError .byteCount s
  else succeed (s.storeBytes .pixout 0 (s.convertedBytes ord ifmt))

/-- The meaning of PIX_CONV. -/
def execPixConv (ord : PixelOrder) (s : State) : Host.Outcome State Fault Refusal :=
  .next (runPixConv ord s)

/-- The meaning of PIX_BUF. -/
def execPixBuf (ord : PixelOrder) (ifmt : InputFormat) (s : State) : Host.Outcome State Fault Refusal :=
  .next (runPixBuf ord ifmt s)

end Sys2Proof.Machine
end

