-- ==== Sys2Proof/Machine/Bus.lean ====
section
/-! DEFINITION. The bus family (20_memory.md R49): BUS_READ, BUS_WRITE, and the command dispatch a write to CMD
starts (40_command.md R85). -/

namespace Sys2Proof.Machine

/-- ExecuteCommand(word) (40_command.md R85): the command the decoder reads from the word, or ILLEGAL. The
decoder reads no bus transaction from a command word; those two rows lead to ILLEGAL all the same. -/
def executeCommand (word : Word) (s : State) : State :=
  match decodeCommand word with
  | .ok .nop => runNop s
  | .ok .crcClear => runCrcClear s
  | .ok .crcByte => runCrcByte s
  | .ok .crcBuf => runCrcBuf s
  | .ok .frmBuild => runFrmBuild s
  | .ok .frmParse => runFrmParse s
  | .ok (.pixConv ord) => runPixConv ord s
  | .ok (.pixBuf ord ifmt) => runPixBuf ord ifmt s
  | .ok (.busRead _ _) => runIllegal s
  | .ok (.busWrite _ _ _) => runIllegal s
  | .error _ => runIllegal s

/-- RDATA of a read of a target (20_memory.md R49, R52, R53, R55). -/
def State.readTarget (s : State) (size : AccessSize) : Target → Word
  | .register r => s.busReg r
  | .window b k => wordOfBytes (s.bytesAt b k (accessBytes size))

/-- The effect of an accepted write on a target (20_memory.md R49): store, and for CMD run one command. -/
def writeTarget (size : AccessSize) (wdata : Word) (t : Target) (s : State) : State :=
  match t with
  | .register r =>
    if r = .cmd then executeCommand wdata (s.hostWriteReg .cmd wdata) else s.hostWriteReg r wdata
  | .window b k => s.storeBytes b k (bytesOfWord (accessBytes size) wdata)

/-- BusAccess with WE = 0 (20_memory.md R49). -/
def runBusRead (size : AccessSize) (off : Offset) (s : State) : State :=
  match busTarget s.params size off.toNat with
  | none => busError s
  | some t => returnOkay (s.readTarget size t) s

/-- BusAccess with WE = 1 (20_memory.md R49). A write returns RDATA = 0 (R53). -/
def runBusWrite (size : AccessSize) (off : Offset) (wdata : Word) (s : State) : State :=
  match busTarget s.params size off.toNat with
  | none => busError s
  | some t => if t.readOnly then busError s else returnOkay 0#32 (writeTarget size wdata t s)

/-- The meaning of BUS_READ. -/
def execBusRead (size : AccessSize) (off : Offset) (s : State) : Host.Outcome State Fault Refusal :=
  .next (runBusRead size off s)

/-- The meaning of BUS_WRITE. -/
def execBusWrite (size : AccessSize) (off : Offset) (wdata : Word) (s : State) :
    Host.Outcome State Fault Refusal :=
  .next (runBusWrite size off wdata s)

/-- The request word of `wr.w CMD, V` (30_encoding.md R78, R79): WE = 1, SIZE = 2, OFF = 0x00. -/
def cmdWriteRequest : Word := 0x00600000#32

/-- The transaction that runs an encoded instruction: a command word is written to CMD (R79), a request word is
issued as it stands. -/
def hostEvent : CodeWord → HostEvent
  | .cmd w => .bus cmdWriteRequest w
  | .req w wdata => .bus w wdata

end Sys2Proof.Machine
end

