-- ==== Sys2Proof/Machine/Dispatch.lean ====
section
/-! DEFINITION. The dispatch: one arm per row of spec/opcode_table.json. -/

namespace Sys2Proof.Machine

/-- What each instruction does. A command's arm is its exec_ procedure (40_command.md R85): the store of the word
in CMD before it and the bus response after it belong to the write that starts it (log entry 8). -/
def exec (i : Instr) (s : State) : Host.Outcome State Fault Refusal :=
  match i with
  | .nop => Sys2Proof.Machine.execNop s
  | .crcClear => Sys2Proof.Machine.execCrcClear s
  | .crcByte => Sys2Proof.Machine.execCrcByte s
  | .crcBuf => Sys2Proof.Machine.execCrcBuf s
  | .frmBuild => Sys2Proof.Machine.execFrmBuild s
  | .frmParse => Sys2Proof.Machine.execFrmParse s
  | .pixConv ord => Sys2Proof.Machine.execPixConv ord s
  | .pixBuf ord ifmt => Sys2Proof.Machine.execPixBuf ord ifmt s
  | .busRead size off => Sys2Proof.Machine.execBusRead size off s
  | .busWrite size off wdata => Sys2Proof.Machine.execBusWrite size off wdata s

end Sys2Proof.Machine
end

