-- ==== Sys2Proof/Machine/Step.lean ====
section
/-! DEFINITION. One step: one host event (10_state.md R19, R20; 20_memory.md R63). -/

namespace Sys2Proof.Machine

/-- Take the oldest pending event. A transaction is decoded (30_encoding.md R71) and run; a request word with
RSV ≠ 0 is refused with BusError before any other check; a reset resets. With nothing pending the block is idle
and all its state survives (60_exceptions.md R140; log entry 5). -/
def step (s : State) : Host.Outcome State Fault Refusal :=
  match s.pending with
  | [] => .next s
  | .bus req wdata :: rest =>
    match decodeRequest req wdata with
    | .ok i => exec i (s.withPending rest)
    | .error _ => .next (busError (s.withPending rest))
  | .reset :: rest => .next (applyReset (s.withPending rest))
  | .resetDuring _ _ :: rest => .next (abandonTransaction (s.withPending rest))

/-- The state in which the host issues that instruction next (log entries 5, 7). -/
def State.withFetchWord (s : State) (nbits w : Nat) : State :=
  s.withPending (hostEvent (tableCodeWord nbits w) :: s.pending)

end Sys2Proof.Machine
end

