-- ==== Sys2Proof/Safety.lean ====
section
/-! DEFINITION. What counts as a sound state, and the spec's conditions that claims are stated in: the legal
parameters, the register and buffer facts every step keeps, when a transaction is refused, the opcode map as the
spec writes it, and which registers and buffers a command reads and writes. -/

namespace Sys2Proof.Machine

/-- The legal values of the two parameters (00_scope.md R6, R7). -/
abbrev paramsLegal (p : Config.Params) : Prop :=
  1024 ≤ p.maxPayload ∧ p.maxPayload ≤ 65528 ∧ 1 ≤ p.pixels ∧ p.pixels ≤ 32768

/-- Reserved bits of every register hold 0 (10_state.md R22). -/
def State.reservedZero (s : State) : Prop := ∀ r : RegName, s.reg r &&& r.fieldMask = s.reg r

/-- STATUS.ERR holds one of the codes 0 to 4 (60_exceptions.md R125). -/
def State.errLegal (s : State) : Prop := s.err.toNat ≤ 4

/-- Every buffer's memory is canonical and lies below its capacity (10_state.md R45, 20_memory.md R57). -/
def State.buffersLegal (s : State) : Prop :=
  ∀ b : Buffer, (s.bufs.get b).wf ∧ (s.bufs.get b).below (capacity s.params b)

/-- TX_COUNT is 0 (no frame built) or the length of a frame that fits TX (10_state.md R33). -/
def State.txCountLegal (s : State) : Prop :=
  s.reg .txCount = 0#32 ∨
    (8 ≤ (s.reg .txCount).toNat ∧ (s.reg .txCount).toNat ≤ capacity s.params .tx)

/-- The RX_* result registers agree with each other (10_state.md R37 to R41, 42_frame.md R108). -/
def State.parseResultsAgree (s : State) : Prop :=
  (s.infoTrunc = true →
    s.infoCrcPresent = false ∧ s.infoCrcMatch = false ∧ s.reg .rxCrcCalc = 0#32 ∧
      (s.reg .rxPlen).toNat < (s.reg .rxLen).toNat) ∧
  (s.infoTrunc = false → s.reg .rxPlen = s.reg .rxLen) ∧
  (s.infoCrcPresent = false → s.reg .rxCrc = 0#32) ∧
  (s.infoCrcMatch = true ↔ s.infoCrcPresent = true ∧ s.reg .rxCrc = s.reg .rxCrcCalc)

/-- A sound state. -/
structure State.Inv (s : State) : Prop where
  params : paramsLegal s.params
  reserved : s.reservedZero
  err : s.errLegal
  buffers : s.buffersLegal
  txCount : s.txCountLegal
  parse : s.parseResultsAgree

/-! ### What stays -/

/-- Every register but those listed holds what it held. -/
def sameRegsBut (s t : State) (written : List RegName) : Prop :=
  ∀ r : RegName, r ∉ written → t.reg r = s.reg r

/-- Every byte of every buffer reads as before. -/
def sameBytes (s t : State) : Prop := ∀ (b : Buffer) (k : Nat), t.byteAt b k = s.byteAt b k

/-- Every byte of every buffer reads as before, but bytes `k .. k+n-1` of `b`. -/
def sameBytesBut (s t : State) (b : Buffer) (k n : Nat) : Prop :=
  ∀ (b' : Buffer) (j : Nat), b' ≠ b ∨ j < k ∨ k + n ≤ j → t.byteAt b' j = s.byteAt b' j

/-- The model's own fields: the parameters, the count of resets, the host's events and the answers given. -/
def sameWorld (s t : State) : Prop :=
  t.params = s.params ∧ t.epoch = s.epoch ∧ t.pending = s.pending ∧ t.responses = s.responses

/-! ### When a transaction is refused -/

/-- SIZE of a request word, as a number (30_encoding.md R70). -/
def requestSize (req : Word) : Nat := req.toNat / 2 ^ 20 % 4

/-- OFF of a request word, as a number (30_encoding.md R70). -/
def requestOffset (req : Word) : Nat := req.toNat % 2 ^ 20

/-- The offset lies in the aperture of a buffer's window (20_memory.md R57). -/
abbrev inAperture (b : Buffer) (off : Nat) : Prop :=
  windowBase b ≤ off ∧ off < windowBase b + windowAperture b

/-- The conditions of 60_exceptions.md R131, any of which refuses a transaction with BusError. -/
def busRefused (p : Config.Params) (req : Word) : Prop :=
  req.toNat / 2 ^ 23 ≠ 0 ∨
  requestSize req = 3 ∨
  requestOffset req % 2 ^ requestSize req ≠ 0 ∨
  (requestOffset req ≤ 0x000FF ∧ requestSize req ≠ 2) ∨
  (requestOffset req ≤ 0x000FF ∧ ∀ r : RegName, r.offset ≠ requestOffset req) ∨
  (0x000FF < requestOffset req ∧ ∀ b : Buffer, ¬ inAperture b (requestOffset req)) ∨
  (∃ b : Buffer, inAperture b (requestOffset req) ∧
    capacity p b < requestOffset req - windowBase b + 2 ^ requestSize req) ∨
  (req.toNat / 2 ^ 22 % 2 = 1 ∧
    ((∃ r : RegName, r.offset = requestOffset req ∧ r.readOnly = true) ∨
     (∃ b : Buffer, inAperture b (requestOffset req) ∧ windowReadOnly b = true)))

/-- The buffer bytes a command writes on success (40_command.md R84): TX[0 .. LEN+7] and
PIXOUT[0 .. 2×P_PIXELS-1]. -/
def State.commandStores (s : State) : Instr → Buffer → Nat → Prop
  | .frmBuild, .tx, k => k < s.frmLenCount + 8
  | .pixBuf _ _, .pixout, k => k < 2 * s.params.pixels
  | _, _, _ => False

/-! ### The CRC as a remainder (41_crc.md R92) -/

/-- The product over GF(2) of the polynomial whose coefficients are `q`, the highest first, and the polynomial
whose coefficients are the bits of `g`. -/
def polyProduct (q : List Bool) (g : Nat) : Nat :=
  q.foldl (fun x c => (2 * x) ^^^ (if c then g else 0)) 0

/-- The bytes as one polynomial over GF(2): the first byte highest, each byte's most significant bit first. -/
def messagePoly (bs : List Byte) : Nat := bs.foldl (fun x b => x * 2 ^ 8 + b.toNat) 0

/-- CRC commands that feed `bs`, in order, starting with the CRC that `s` holds and leaving `t`: each CRC_BYTE
and CRC_BUF runs in a state that the host has prepared without changing CRC (41_crc.md R96). -/
inductive CrcFeed : State → List Byte → State → Prop where
  | done (s t : State) : t.reg .crc = s.reg .crc → CrcFeed s [] t
  | byte (s u v t : State) (bs : List Byte) : u.reg .crc = s.reg .crc →
      exec .crcByte u = .next v → CrcFeed v bs t → CrcFeed s (u.crcDinByte :: bs) t
  | buf (s u v t : State) (bs : List Byte) : u.reg .crc = s.reg .crc →
      u.crcLenCount ≤ u.params.maxPayload → exec .crcBuf u = .next v → CrcFeed v bs t →
      CrcFeed s (u.bytesAt .payload 0 u.crcLenCount ++ bs) t

end Sys2Proof.Machine

namespace Sys2Proof

open Machine

/-! ### The opcode map (30_encoding.md R73) -/

/-- A row of the opcode map: its pattern, and the instruction a matching word stands for. -/
structure OpcodeRow where
  pattern : Word
  mask : Word
  meaning : Word → Instr

/-- ORD of a word that its row leaves free (R72). -/
def freeOrd (w : Word) : PixelOrder := if w.getLsbD 8 then .bgr565 else .rgb565

/-- IFMT of a word that its row leaves free (R72). -/
def freeIfmt (w : Word) : InputFormat := if w.getLsbD 9 then .rgba8888 else .rgb888

/-- The eight rows of R73. -/
def opcodeMap : List OpcodeRow :=
  [⟨0x00000000#32, 0xFFFFFFFF#32, fun _ => .nop⟩,
   ⟨0x00000001#32, 0xFFFFFFFF#32, fun _ => .crcClear⟩,
   ⟨0x00000002#32, 0xFFFFFFFF#32, fun _ => .crcByte⟩,
   ⟨0x00000003#32, 0xFFFFFFFF#32, fun _ => .crcBuf⟩,
   ⟨0x00000010#32, 0xFFFFFFFF#32, fun _ => .frmBuild⟩,
   ⟨0x00000011#32, 0xFFFFFFFF#32, fun _ => .frmParse⟩,
   ⟨0x00000020#32, 0xFFFFFEFF#32, fun w => .pixConv (freeOrd w)⟩,
   ⟨0x00000021#32, 0xFFFFFCFF#32, fun w => .pixBuf (freeOrd w) (freeIfmt w)⟩]

/-! ### What a command reads and writes -/

/-- The eight block commands (00_scope.md R15). -/
def Instr.isCommand : Instr → Bool
  | .nop | .crcClear | .crcByte | .crcBuf | .frmBuild | .frmParse | .pixConv _ | .pixBuf _ _ => true
  | .busRead _ _ | .busWrite _ _ _ => false

/-- The registers a command writes on success beside STATUS (40_command.md R84). -/
def Instr.resultRegs : Instr → List RegName
  | .nop => []
  | .crcClear => [.crc]
  | .crcByte => [.crc]
  | .crcBuf => [.crc]
  | .frmBuild => [.txCount, .frmCrc]
  | .frmParse => [.rxCmd, .rxAddr, .rxLen, .rxPlen, .rxCrc, .rxCrcCalc, .rxInfo]
  | .pixConv _ => [.pix565]
  | .pixBuf _ _ => []
  | .busRead _ _ => []
  | .busWrite _ _ _ => []

/-- The registers a command reads (the Operands of 40_command.md R88, 41_crc.md R94, R95, R97, 42_frame.md R104,
R107, 43_pixel.md R117, R119). -/
def Instr.operandRegs : Instr → List RegName
  | .nop => []
  | .crcClear => []
  | .crcByte => [.crc, .crcDin]
  | .crcBuf => [.crc, .crcLen]
  | .frmBuild => [.frmCmd, .frmAddr, .frmLen]
  | .frmParse => [.rxCount]
  | .pixConv _ => [.pixRgb]
  | .pixBuf _ _ => [.pixinCount]
  | .busRead _ _ => []
  | .busWrite _ _ _ => []

/-- The buffers a command reads (the Operands of 41_crc.md R97, 42_frame.md R104, R107, 43_pixel.md R119). -/
def Instr.inputBuffers : Instr → List Buffer
  | .nop => []
  | .crcClear => []
  | .crcByte => []
  | .crcBuf => [.payload]
  | .frmBuild => [.payload]
  | .frmParse => [.rx]
  | .pixConv _ => []
  | .pixBuf _ _ => [.pixin]
  | .busRead _ _ => []
  | .busWrite _ _ _ => []

end Sys2Proof
end

