-- ==== Sys2Proof/Certificates/Slice0/Obligations.lean ====
section
/-! DEFINITION. The statements for the provers. Each docstring names the rule of spec/ the statement formalises. -/

open Sys2Proof Sys2Proof.Machine

/-! ## Encoding -/

/-- Sample words, written out from 30_encoding.md R70 and R73, decode to the instructions they stand for. -/
def Obligations.SpecWordsDecodeToTheirInstructions : Prop :=
  decodeCommand 0x00000000#32 = .ok .nop ∧
  decodeCommand 0x00000001#32 = .ok .crcClear ∧
  decodeCommand 0x00000002#32 = .ok .crcByte ∧
  decodeCommand 0x00000003#32 = .ok .crcBuf ∧
  decodeCommand 0x00000010#32 = .ok .frmBuild ∧
  decodeCommand 0x00000011#32 = .ok .frmParse ∧
  decodeCommand 0x00000120#32 = .ok (.pixConv .bgr565) ∧
  decodeCommand 0x00000221#32 = .ok (.pixBuf .rgb565 .rgba8888) ∧
  decodeCommand 0x00000103#32 = .error .illegalCommandWord ∧
  decodeRequest 0x00030006#32 0#32 = .ok (.busRead .byte 0x30006#20) ∧
  decodeRequest 0x00510004#32 0x4152#32 = .ok (.busWrite .half 0x10004#20 0x4152#32) ∧
  decodeRequest 0x00600028#32 9#32 = .ok (.busWrite .word 0x00028#20 9#32) ∧
  decodeRequest 0x00A00008#32 0#32 = .error .reservedRequestBits

/-- 30_encoding.md R73: "A command word is legal exactly when `(word & mask) = match` for one row; each row names
the rule that gives its semantics", and "No two rows match the same word". -/
def Obligations.CommandWordLegalExactlyByOpcodeMap : Prop :=
  ∀ w : Word,
    ((∃ i, decodeCommand w = .ok i) ↔ ∃ row ∈ opcodeMap, w &&& row.mask = row.pattern) ∧
    (∀ row ∈ opcodeMap, w &&& row.mask = row.pattern → decodeCommand w = .ok (row.meaning w)) ∧
    (∀ row ∈ opcodeMap, ∀ row' ∈ opcodeMap,
      w &&& row.mask = row.pattern → w &&& row'.mask = row'.pattern → row.pattern = row'.pattern)

/-- 30_encoding.md R74: on a host write to CMD, the command of the row that the word matches runs; a word is illegal,
matching no row, exactly when "its OPC is not in the map, or its RSV bits are not all 0, or it sets ORD or IFMT for
an opcode that does not use them"; then "the command ILLEGAL runs, which only sets STATUS.ERR = 1 (ILLEGAL_CMD)",
and "CMD keeps the illegal word as written" (40_command.md R89). -/
def Obligations.IllegalWordOnlySetsErr : Prop :=
  ∀ (w : Word) (s : State),
    ((w.toNat / 2 ^ 10 ≠ 0 ∨
      w.toNat % 256 ∉ [0x00, 0x01, 0x02, 0x03, 0x10, 0x11, 0x20, 0x21] ∨
      (w.toNat / 2 ^ 8 % 2 = 1 ∧ w.toNat % 256 ∉ [0x20, 0x21]) ∨
      (w.toNat / 2 ^ 9 % 2 = 1 ∧ w.toNat % 256 ≠ 0x21)) ↔
      ∀ row ∈ opcodeMap, w &&& row.mask ≠ row.pattern) ∧
    ((∀ row ∈ opcodeMap, w &&& row.mask ≠ row.pattern) →
      exec (.busWrite .word 0x00000#20 w) s =
        .next (((s.setReg .cmd w).setReg .status 0x00000001#32).respond ⟨0#32, .okay⟩)) ∧
    (∀ row ∈ opcodeMap, w &&& row.mask = row.pattern →
      ∃ t, exec (row.meaning w) (s.setReg .cmd w) = .next t ∧
        exec (.busWrite .word 0x00000#20 w) s = .next (t.respond ⟨0#32, .okay⟩))

/-- Decoding the words of an instruction gives the instruction back, at every value of every operand
(30_encoding.md R70, R72). -/
def Obligations.DecodeEncodeAgree : Prop :=
  ∀ i : Instr, decode (encode i) = .ok i

/-- A word that decodes is the word its instruction encodes to: no bit of a legal word is dropped but WDATA of a
read, which is "ignored by a read" (30_encoding.md R69). -/
def Obligations.DecodedWordsReencode : Prop :=
  (∀ (w : Word) (i : Instr), decodeCommand w = .ok i → encode i = .cmd w) ∧
  (∀ (req wdata : Word) (i : Instr), decodeRequest req wdata = .ok i →
    encode i = .req req (if req.getLsbD 22 then wdata else 0#32))

/-! ## The step -/

/-- A step whose event is a transaction runs the instruction that the request decodes to (30_encoding.md R71),
with the event taken off the queue. -/
def Obligations.StepRunsDecodedInstruction : Prop :=
  ∀ (s : State) (req wdata : Word) (rest : List HostEvent) (i : Instr),
    s.pending = .bus req wdata :: rest → decodeRequest req wdata = .ok i →
    step s = exec i (s.withPending rest)

/-- 40_command.md R85: a host write to CMD "stores the word in CMD and then runs exactly one command", the one of the
opcode map's row that the word matches (30_encoding.md R73), ILLEGAL when no row matches. "A write to CMD that is
refused with BusError (a 1- or 2-byte access, 20_memory.md rule R54) stores nothing and runs no command." -/
def Obligations.CmdWriteStoresThenRunsOneCommand : Prop :=
  ∀ (s : State) (w : Word) (rest : List HostEvent),
    (s.pending = .bus 0x00600000#32 w :: rest →
      (∀ row ∈ opcodeMap, w &&& row.mask = row.pattern →
        ∃ t, exec (row.meaning w) ((s.withPending rest).setReg .cmd w) = .next t ∧
          step s = .next (t.respond ⟨0#32, .okay⟩)) ∧
      ((∀ row ∈ opcodeMap, w &&& row.mask ≠ row.pattern) →
        step s = .next ((((s.withPending rest).setReg .cmd w).setReg .status
          0x00000001#32).respond ⟨0#32, .okay⟩))) ∧
    (∀ size : AccessSize, size ≠ .word →
      exec (.busWrite size 0x00000#20 w) s = .next (s.respond ⟨0#32, .buserr⟩))

/-- No instruction and no host event stops the machine: "Each command is a total function of (command word, state)
to state" (40_command.md R82), and BusError is a response (92_eei_decisions.md D8). -/
def Obligations.EveryStepAnswersNext : Prop :=
  (∀ (i : Instr) (s : State), ∃ t, exec i s = .next t) ∧ (∀ s : State, ∃ t, step s = .next t)

/-- One event a step, in the order the host issues them (20_memory.md R63); the parameters never change
(10_state.md R17); a transaction that completes returns exactly one response (20_memory.md R48), and a reset on
its own returns none. The queue pending and the list responses are the model's own (DESIGN CHOICE, log entry 4), and
so is the count epoch of the resets (DESIGN CHOICE, log entry 3). That a transaction abandoned by reset adds exactly
one response is the model's choice too (DESIGN CHOICE, log entry 6, unsafe for a claim that counts responses across a
reset), and no rule says it: 70_reset_and_hazards.md R144 promises "no response the host may rely on". -/
def Obligations.StepConsumesOneEventInOrder : Prop :=
  ∀ (s : State) (e : HostEvent) (rest : List HostEvent), s.pending = e :: rest →
    ∃ t, step s = .next t ∧ t.pending = rest ∧ t.params = s.params ∧
      match e with
      | .bus _ _ => t.epoch = s.epoch ∧ ∃ a, t.responses = a :: s.responses
      | .reset => t.epoch = s.epoch + 1 ∧ t.responses = s.responses
      | .resetDuring _ _ => t.epoch = s.epoch + 1 ∧ ∃ a, t.responses = a :: s.responses

/-- The block never changes state with no host transaction and no reset (10_state.md R20), and "all state
survives idleness" (60_exceptions.md R140). The idle step is the model's choice (log entry 5). -/
def Obligations.IdleBlockKeepsItsState : Prop :=
  ∀ s : State, s.pending = [] → step s = .next s

/-! ## BusError -/

/-- 60_exceptions.md R131: a transaction is refused with BusError (RESP = BUSERR, RDATA = 0) when any of the
listed conditions holds, and "A refused transaction changes nothing"; when none holds it is answered OKAY. -/
def Obligations.BusErrorExactlyWhenRefused : Prop :=
  ∀ (s : State) (req wdata : Word) (rest : List HostEvent), s.pending = .bus req wdata :: rest →
    (busRefused s.params req →
      step s = .next ((s.withPending rest).respond ⟨0#32, .buserr⟩)) ∧
    (¬ busRefused s.params req →
      ∃ t v, step s = .next t ∧ t.responses = ⟨v, .okay⟩ :: s.responses)

/-- 10_state.md R23: the read-only registers "change only by a command or by reset": no transaction but the CMD write
changes one. "A host write to one of them is refused with BusError and changes nothing", at every access size. -/
def Obligations.ReadOnlyRegistersChangeOnlyByCommandOrReset : Prop :=
  (∀ (s t : State) (req wdata : Word) (rest : List HostEvent),
    s.pending = .bus req wdata :: rest → req ≠ 0x00600000#32 → step s = .next t →
    ∀ r : RegName, r ∈ [RegName.status, .crc, .frmCrc, .txCount, .rxCmd, .rxAddr, .rxLen, .rxPlen, .rxCrc,
      .rxCrcCalc, .rxInfo, .pix565] → t.reg r = s.reg r) ∧
  (∀ (s : State) (r : RegName) (size : AccessSize) (w : Word), r ∈ [RegName.status, .crc, .frmCrc, .txCount,
      .rxCmd, .rxAddr, .rxLen, .rxPlen, .rxCrc, .rxCrcCalc, .rxInfo, .pix565] →
    exec (.busWrite size (BitVec.ofNat 20 r.offset) w) s = .next (s.respond ⟨0#32, .buserr⟩))

/-! ## Reset and invariants -/

/-- 70_reset_and_hazards.md R141: on reset "every register takes its reset value", 0x00000000, in the state after
power-on reset and after a later reset; "Reset runs no command" and returns no response. -/
def Obligations.ResetZeroesEveryRegister : Prop :=
  (∀ r : RegName, State.reset.reg r = 0x00000000#32) ∧
  (∀ (s : State) (rest : List HostEvent), s.pending = .reset :: rest →
    ∃ t, step s = .next t ∧ (∀ r : RegName, t.reg r = 0x00000000#32) ∧
      t.responses = s.responses ∧ t.pending = rest ∧ t.params = s.params)

/-- Reset forgets the buffers: what a byte reads as after a reset is a draw that does not depend on what the
buffers held (70_reset_and_hazards.md R142). The draws are the model's free values (log entries 2, 3); nothing
here rests on their values. -/
def Obligations.ResetForgetsBuffers : Prop :=
  ∀ (s s' : State) (rest : List HostEvent), s.pending = .reset :: rest → s'.pending = .reset :: rest →
    s'.epoch = s.epoch → s'.params = s.params →
    ∃ t t', step s = .next t ∧ step s' = .next t' ∧ t'.regs = t.regs ∧ t'.bufs = t.bufs ∧ sameBytes t t'

/-- Reset during a transaction (70_reset_and_hazards.md R144): the transaction is abandoned with no effect, some
response is returned, and the state is the one a reset alone leaves. The form of the response is the model's
(log entry 6). -/
def Obligations.AbandonedTransactionLeavesTheResetState : Prop :=
  ∀ (s : State) (req wdata : Word) (rest : List HostEvent), s.pending = .resetDuring req wdata :: rest →
    ∃ t u a, step s = .next t ∧ step (s.withPending (.reset :: rest)) = .next u ∧ t = u.respond a

/-- The state after reset is sound. -/
def Obligations.ResetStateIsSound : Prop := State.reset.Inv

/-- Every step keeps the invariant: legal parameters (00_scope.md R6, R7), reserved bits 0 (10_state.md R22), an
error code 0 to 4 (60_exceptions.md R125), buffers canonical and within capacity (20_memory.md R57), TX_COUNT a
frame's length (10_state.md R33), and RX_* results that agree with RX_INFO (10_state.md R38 to R41). -/
def Obligations.EveryStepKeepsTheStateSound : Prop :=
  ∀ s t : State, s.Inv → step s = .next t → t.Inv

/-! ## All commands -/

/-- 40_command.md R84: "Each command writes only the state listed here (plus STATUS, rule R86); everything else is
unchanged by it", and "No command writes an operand register, CMD, PAYLOAD, RX or PIXIN". The last clause is the
row of ILLEGAL, after the CMD write that starts it has stored the word. -/
def Obligations.CommandsWriteOnlyTheirWriteSets : Prop :=
  (∀ (i : Instr) (s : State), i.isCommand = true →
    ∃ t, exec i s = .next t ∧ sameRegsBut s t (.status :: i.resultRegs) ∧
      (∀ (b : Buffer) (k : Nat), ¬ s.commandStores i b k → t.byteAt b k = s.byteAt b k) ∧
      sameWorld s t ∧
      sameRegsBut s t [.status, .crc, .frmCrc, .txCount, .rxCmd, .rxAddr, .rxLen, .rxPlen, .rxCrc, .rxCrcCalc,
        .rxInfo, .pix565] ∧
      (∀ (b : Buffer) (k : Nat), b ≠ .tx → b ≠ .pixout → t.byteAt b k = s.byteAt b k)) ∧
  (∀ (w : Word) (s : State), (∀ row ∈ opcodeMap, w &&& row.mask ≠ row.pattern) →
    ∃ t, exec (.busWrite .word 0x00000#20 w) s = .next t ∧ sameRegsBut s t [.cmd, .status] ∧ sameBytes s t)

/-- 40_command.md R83: "A command that raises an error (`raise Error(code)`) writes STATUS.ERR = code and nothing
else". The last clause is ILLEGAL, which always raises, after the CMD write that starts it. -/
def Obligations.FailedCommandChangesOnlyStatus : Prop :=
  (∀ (i : Instr) (s : State), i.isCommand = true →
    ∃ t, exec i s = .next t ∧ (t.err ≠ 0#4 → t = s.setReg .status (t.reg .status))) ∧
  (∀ (w : Word) (s : State), (∀ row ∈ opcodeMap, w &&& row.mask ≠ row.pattern) →
    ∃ t, exec (.busWrite .word 0x00000#20 w) s = .next (t.respond ⟨0#32, .okay⟩) ∧ t.err ≠ 0#4 ∧
      t = (s.setReg .cmd w).setReg .status (t.reg .status))

/-- 60_exceptions.md R125: the error code each command leaves, with its cause; codes 5 to 15 are never produced.
ILLEGAL_CMD is the outcome of a CMD word that no row matches. -/
def Obligations.ErrorCodesHaveTheirCauses : Prop :=
  (∀ (i : Instr) (s : State), i.isCommand = true →
    ∃ t, exec i s = .next t ∧
      ((t.reg .status).toNat = 0 ∨ (t.reg .status).toNat = 2 ∨ (t.reg .status).toNat = 3 ∨
        (t.reg .status).toNat = 4) ∧
      ((t.reg .status).toNat = 2 ↔
        (i = .crcBuf ∧ s.params.maxPayload < (s.reg .crcLen).toNat % 2 ^ 16) ∨
        (i = .frmBuild ∧ s.params.maxPayload < (s.reg .frmLen).toNat % 2 ^ 16) ∨
        (i = .frmParse ∧ s.params.maxPayload + 8 < (s.reg .rxCount).toNat % 2 ^ 17)) ∧
      ((t.reg .status).toNat = 3 ↔
        i = .frmParse ∧ (s.reg .rxCount).toNat % 2 ^ 17 ≤ s.params.maxPayload + 8 ∧
          ((s.reg .rxCount).toNat % 2 ^ 17 < 6 ∨ s.byteAt .rx 0 ≠ 0xA5#8)) ∧
      ((t.reg .status).toNat = 4 ↔
        ∃ ord ifmt, i = .pixBuf ord ifmt ∧
          (s.reg .pixinCount).toNat % 2 ^ 18 ≠
            s.params.pixels * (match ifmt with | .rgb888 => 3 | .rgba8888 => 4))) ∧
  (∀ (w : Word) (s : State), (∀ row ∈ opcodeMap, w &&& row.mask ≠ row.pattern) →
    ∃ t, exec (.busWrite .word 0x00000#20 w) s = .next t ∧ (t.reg .status).toNat = 1)

/-- 40_command.md R82: a command "reads its operand registers and input buffers as they stand" and "computes its
results from those values only": two states with the same parameters that agree on these, whatever their other
registers, TX, PIXOUT and the rest hold, leave the same STATUS and on success the same result registers and stored
bytes. R87: "No command depends on STATUS, RX_INFO or on the previous content of any of its result registers" (a
command that fails writes no result register, so that register keeps its other content); any other register that is
no operand only keeps its other content. ILLEGAL reads nothing. -/
def Obligations.CommandsDependOnlyOnTheirOperands : Prop :=
  (∀ (i : Instr) (s : State), i.isCommand = true →
    ∃ t, exec i s = .next t ∧
      (∀ v : Word, exec i (s.setReg .status v) = .next t) ∧
      (∀ (r : RegName) (v : Word), r ∉ i.operandRegs → r ∈ i.resultRegs → t.err = 0#4 →
        exec i (s.setReg r v) = .next t) ∧
      (∀ (r : RegName) (v : Word), r ∉ i.operandRegs → r ∈ i.resultRegs → t.err ≠ 0#4 →
        exec i (s.setReg r v) = .next (t.setReg r v)) ∧
      (∀ (r : RegName) (v : Word), r ∉ i.operandRegs → r ∉ i.resultRegs → r ≠ .status →
        exec i (s.setReg r v) = .next (t.setReg r v)) ∧
      (∀ s' : State, s'.params = s.params → (∀ r ∈ i.operandRegs, s'.reg r = s.reg r) →
        (∀ b ∈ i.inputBuffers, ∀ k, s'.byteAt b k = s.byteAt b k) →
        ∃ t', exec i s' = .next t' ∧ t'.reg .status = t.reg .status ∧
          (t.err = 0#4 → (∀ r ∈ i.resultRegs, t'.reg r = t.reg r) ∧
            ∀ (b : Buffer) (k : Nat), s.commandStores i b k → t'.byteAt b k = t.byteAt b k))) ∧
  (∀ (w : Word) (s : State), (∀ row ∈ opcodeMap, w &&& row.mask ≠ row.pattern) →
    exec (.busWrite .word 0x00000#20 w) s =
      .next (((s.setReg .cmd w).setReg .status 0x00000001#32).respond ⟨0#32, .okay⟩))

/-- 40_command.md R90: running a command twice. For NOP, CRC_CLEAR, FRM_BUILD, FRM_PARSE, PIX_CONV, PIX_BUF and
ILLEGAL "the second run leaves the same state as the first"; "for CRC_BYTE and CRC_BUF the second run feeds the
bytes again". -/
def Obligations.RepeatedCommands : Prop :=
  (∀ (i : Instr) (s : State), i.isCommand = true → i ≠ .crcByte → i ≠ .crcBuf →
    ∃ t, exec i s = .next t ∧ exec i t = .next t) ∧
  (∀ s : State, ∃ t, exec .crcByte s = .next t ∧
    exec .crcByte t = .next (t.setReg .crc ((crcFrom s.crcValue [s.crcDinByte, s.crcDinByte]).setWidth 32))) ∧
  (∀ s : State, s.crcLenCount ≤ s.params.maxPayload →
    ∃ t, exec .crcBuf s = .next t ∧
      exec .crcBuf t = .next (t.setReg .crc ((crcFrom s.crcValue
        (s.bytesAt .payload 0 s.crcLenCount ++ s.bytesAt .payload 0 s.crcLenCount)).setWidth 32))) ∧
  (∀ (w : Word) (s : State), (∃ e, decodeCommand w = .error e) →
    ∃ t, exec (.busWrite .word 0x00000#20 w) s = .next t ∧
      exec (.busWrite .word 0x00000#20 w) t = .next (t.respond ⟨0#32, .okay⟩))

/-! ## Control and CRC -/

/-- 40_command.md R88: NOP is the word 0x00000000 exactly; it leaves STATUS = 0 and nothing else changes. -/
def Obligations.NopOnlyClearsStatus : Prop :=
  (∀ w : Word, decodeCommand w = .ok .nop ↔ w = 0x00000000#32) ∧
  (∀ s : State, exec .nop s = .next (s.setReg .status 0x00000000#32))

/-- 41_crc.md R94: CRC_CLEAR is the word 0x00000001; CRC becomes 0x0000 and STATUS 0; nothing else changes. -/
def Obligations.CrcClearZeroesTheAccumulator : Prop :=
  (∀ w : Word, decodeCommand w = .ok .crcClear ↔ w = 0x00000001#32) ∧
  (∀ s : State, exec .crcClear s = .next ((s.setReg .crc 0x00000000#32).setReg .status 0x00000000#32))

/-- 41_crc.md R95: CRC_BYTE is the word 0x00000002; CRC becomes crc_step(CRC[15:0], CRC_DIN[7:0]) and STATUS 0;
nothing else changes. -/
def Obligations.CrcByteFeedsOneByte : Prop :=
  (∀ w : Word, decodeCommand w = .ok .crcByte ↔ w = 0x00000002#32) ∧
  (∀ s : State, exec .crcByte s = .next
    ((s.setReg .crc ((crcStep ((s.reg .crc).extractLsb' 0 16)
      ((s.reg .crcDin).extractLsb' 0 8)).setWidth 32)).setReg .status 0x00000000#32))

/-- 41_crc.md R97: CRC_BUF is the word 0x00000003; with n = CRC_LEN[15:0] at most P_MAX_PAYLOAD it feeds
PAYLOAD[0 .. n-1] into CRC without clearing it first; with n larger it sets STATUS = 2 (LENGTH) and nothing else. -/
def Obligations.CrcBufFeedsThePayload : Prop :=
  (∀ w : Word, decodeCommand w = .ok .crcBuf ↔ w = 0x00000003#32) ∧
  (∀ (s : State) (n : Nat), n = (s.reg .crcLen).toNat % 2 ^ 16 →
    (n ≤ s.params.maxPayload → exec .crcBuf s = .next
      ((s.setReg .crc ((((List.range n).foldl (fun c i => crcStep c (s.byteAt .payload i))
        ((s.reg .crc).extractLsb' 0 16))).setWidth 32)).setReg .status 0x00000000#32)) ∧
    (s.params.maxPayload < n → exec .crcBuf s = .next (s.setReg .status 0x00000002#32)))

/-- 41_crc.md R93: crc_step as the shift register on numbers (the byte enters at bits 15..8, then 8 shifts, each
adding 0x1021 when bit 15 was 1), and crc16 its fold from 0x0000; total, with crc16 of no bytes 0x0000; it gives
0xCD59 for "PROGRAM". -/
def Obligations.CrcStepIsTheShiftRegister : Prop :=
  (∀ (c : Half) (b : Byte), (crcStep c b).toNat =
    (fun x => if 2 ^ 15 ≤ x then (2 * x % 2 ^ 16) ^^^ 0x1021 else 2 * x)^[8] (c.toNat ^^^ b.toNat * 2 ^ 8)) ∧
  crc16 [] = 0x0000#16 ∧
  (∀ (bs : List Byte) (b : Byte), crc16 (bs ++ [b]) = crcStep (crc16 bs) b) ∧
  crc16 [0x50, 0x52, 0x4F, 0x47, 0x52, 0x41, 0x4D] = 0xCD59#16

/-- 41_crc.md R96: CRC_CLEAR, and then any mix of CRC_BYTE and CRC_BUF pieces that feeds the bytes of a sequence
in order, leaves CRC = crc16 of the sequence; and crc16 of a sequence in two pieces continues from the first. -/
def Obligations.CrcIsIncremental : Prop :=
  (∀ (s u t : State) (bs : List Byte), exec .crcClear s = .next u → CrcFeed u bs t →
    (t.reg .crc).extractLsb' 0 16 = crc16 bs) ∧
  (∀ bs cs : List Byte, crc16 (bs ++ cs) = cs.foldl crcStep (crc16 bs))

/-- 41_crc.md R98: a shift discards bit 16 after bit 15 has chosen whether to add 0x1021; each step is linear in
(c, b); crc16 is linear over exclusive or for sequences of equal length. -/
def Obligations.CrcIsLinear : Prop :=
  (∀ c : Half, (crcShift c).toNat =
    if 2 ^ 15 ≤ c.toNat then (2 * c.toNat % 2 ^ 16) ^^^ 0x1021 else 2 * c.toNat) ∧
  (∀ (c d : Half) (b e : Byte), crcStep (c ^^^ d) (b ^^^ e) = crcStep c b ^^^ crcStep d e) ∧
  (∀ bs cs : List Byte, bs.length = cs.length →
    crc16 (List.zipWith (fun x y => x ^^^ y) bs cs) = crc16 bs ^^^ crc16 cs)

/-- 41_crc.md R99: "Appending a sequence's CRC to it, high byte first, gives a sequence whose CRC is 0"; so the CRC
over bytes 1 to the end of a built frame is 0x0000. -/
def Obligations.CrcResidueIsZero : Prop :=
  (∀ bs : List Byte,
    crc16 (bs ++ [(crc16 bs).extractLsb' 8 8, (crc16 bs).extractLsb' 0 8]) = 0x0000#16) ∧
  (∀ (s : State) (n : Nat), n = (s.reg .frmLen).toNat % 2 ^ 16 → n ≤ s.params.maxPayload →
    ∃ t, exec .frmBuild s = .next t ∧ crc16 (t.bytesAt .tx 1 (n + 7)) = 0x0000#16)

/-- The CRC of a sequence is the remainder of its polynomial times x^16 on division by the generator 0x11021. The
generator is that of 41_crc.md R92, "generator polynomial 0x1021, that is x^16 + x^12 + x^5 + 1 with the x^16 term
implicit"; R92 marks this polynomial form as general knowledge, not in its source, and 93_implementation_defined.md
G3 as explanatory only. The function crc16 itself is 41_crc.md R93's, so the statement is derived. -/
def Obligations.CrcIsTheRemainderByTheGenerator : Prop :=
  ∀ bs : List Byte, ∃ q : List Bool,
    messagePoly bs * 2 ^ 16 = polyProduct q 0x11021 ^^^ (crc16 bs).toNat

/-! ## Frame codec -/

/-- 42_frame.md R104 (with the wire format R102 and the CRC coverage R103): FRM_BUILD is the word 0x00000010; what it
leaves, byte by byte, on success, and its frame; LENGTH when FRM_LEN > P_MAX_PAYLOAD, "then nothing but STATUS
changes". -/
def Obligations.FrmBuildWritesTheFrame : Prop :=
  (∀ w : Word, decodeCommand w = .ok .frmBuild ↔ w = 0x00000010#32) ∧
  (∀ (s : State) (n : Nat) (k : Half), n = (s.reg .frmLen).toNat % 2 ^ 16 →
    k = crc16 ([(s.reg .frmCmd).extractLsb' 0 8, (s.reg .frmAddr).extractLsb' 8 8,
      (s.reg .frmAddr).extractLsb' 0 8, (s.reg .frmLen).extractLsb' 8 8, (s.reg .frmLen).extractLsb' 0 8] ++
      (List.range n).map (fun i => s.byteAt .payload i)) →
    (n ≤ s.params.maxPayload →
      ∃ t, exec .frmBuild s = .next t ∧
        t.byteAt .tx 0 = 0xA5#8 ∧
        t.byteAt .tx 1 = (s.reg .frmCmd).extractLsb' 0 8 ∧
        t.byteAt .tx 2 = (s.reg .frmAddr).extractLsb' 8 8 ∧
        t.byteAt .tx 3 = (s.reg .frmAddr).extractLsb' 0 8 ∧
        t.byteAt .tx 4 = (s.reg .frmLen).extractLsb' 8 8 ∧
        t.byteAt .tx 5 = (s.reg .frmLen).extractLsb' 0 8 ∧
        (∀ i, i < n → t.byteAt .tx (6 + i) = s.byteAt .payload i) ∧
        t.byteAt .tx (6 + n) = k.extractLsb' 8 8 ∧
        t.byteAt .tx (7 + n) = k.extractLsb' 0 8 ∧
        (t.reg .txCount).toNat = n + 8 ∧
        t.reg .frmCrc = k.setWidth 32 ∧
        t.reg .status = 0x00000000#32 ∧
        sameRegsBut s t [.txCount, .frmCrc, .status] ∧
        sameBytesBut s t .tx 0 (n + 8) ∧
        sameWorld s t) ∧
    (s.params.maxPayload < n → exec .frmBuild s = .next (s.setReg .status 0x00000002#32)))

/-- 42_frame.md R105: after a successful FRM_BUILD, TX[0] = 0xA5, `{TX[4], TX[5]}` = TX_COUNT − 8 = the payload
length, `{TX[6+L], TX[7+L]}` = FRM_CRC = crc16(TX[1 .. 5+L]), and crc16(TX[1 .. TX_COUNT−1]) = 0x0000. -/
def Obligations.BuiltFrameInvariants : Prop :=
  ∀ (s : State) (n : Nat), n = (s.reg .frmLen).toNat % 2 ^ 16 → n ≤ s.params.maxPayload →
    ∃ t, exec .frmBuild s = .next t ∧ t.byteAt .tx 0 = 0xA5#8 ∧
      (t.byteAt .tx 4).toNat * 256 + (t.byteAt .tx 5).toNat = n ∧
      (t.reg .txCount).toNat = n + 8 ∧
      (t.byteAt .tx (6 + n)).toNat * 256 + (t.byteAt .tx (7 + n)).toNat = (t.reg .frmCrc).toNat ∧
      t.reg .frmCrc = (crc16 (t.bytesAt .tx 1 (5 + n))).setWidth 32 ∧
      crc16 (t.bytesAt .tx 1 ((t.reg .txCount).toNat - 1)) = 0x0000#16

/-- 42_frame.md R107: FRM_PARSE is the word 0x00000011; everything a successful FRM_PARSE leaves; LENGTH when
RX_COUNT > RX_CAP, checked first; MALFORMED_FRAME when RX_COUNT < 6 or RX[0] ≠ 0xA5; "on either, the RX_* result
registers keep their previous values". -/
def Obligations.FrmParseReportsTheFrame : Prop :=
  (∀ w : Word, decodeCommand w = .ok .frmParse ↔ w = 0x00000011#32) ∧
  (∀ (s : State) (m len : Nat) (rcrc ccalc : Half),
    m = (s.reg .rxCount).toNat % 2 ^ 17 →
    len = (s.byteAt .rx 4).toNat * 256 + (s.byteAt .rx 5).toNat →
    rcrc = (if 8 + len ≤ m then s.byteAt .rx (6 + len) ++ s.byteAt .rx (7 + len) else 0x0000#16) →
    ccalc = (if m < 6 + len then 0x0000#16
      else crc16 ((List.range (5 + len)).map fun i => s.byteAt .rx (1 + i))) →
    (m ≤ s.params.maxPayload + 8 → 6 ≤ m → s.byteAt .rx 0 = 0xA5#8 →
      ∃ t, exec .frmParse s = .next t ∧
        t.reg .rxCmd = (s.byteAt .rx 1).setWidth 32 ∧
        (t.reg .rxAddr).toNat = (s.byteAt .rx 2).toNat * 256 + (s.byteAt .rx 3).toNat ∧
        (t.reg .rxLen).toNat = len ∧
        (t.reg .rxPlen).toNat = (if m < 6 + len then m - 6 else len) ∧
        t.reg .rxCrc = rcrc.setWidth 32 ∧
        t.reg .rxCrcCalc = ccalc.setWidth 32 ∧
        (t.reg .rxInfo).toNat =
          (if 8 + len ≤ m ∧ rcrc = ccalc then 4 else 0) + (if 8 + len ≤ m then 2 else 0) +
            (if m < 6 + len then 1 else 0) ∧
        t.reg .status = 0x00000000#32 ∧
        sameRegsBut s t [.rxCmd, .rxAddr, .rxLen, .rxPlen, .rxCrc, .rxCrcCalc, .rxInfo, .status] ∧
        sameBytes s t ∧
        sameWorld s t) ∧
    (s.params.maxPayload + 8 < m → exec .frmParse s = .next (s.setReg .status 0x00000002#32)) ∧
    (m ≤ s.params.maxPayload + 8 → m < 6 ∨ s.byteAt .rx 0 ≠ 0xA5#8 →
      exec .frmParse s = .next (s.setReg .status 0x00000003#32)))

/-- 42_frame.md R106: "FRM_PARSE fails with MALFORMED_FRAME exactly when RX_COUNT < 6 or RX[0] ≠ 0xA5, and in no
other case of a legal RX_COUNT". -/
def Obligations.MalformedExactlyWhenShortOrUnmarked : Prop :=
  ∀ (s : State) (m : Nat), m = (s.reg .rxCount).toNat % 2 ^ 17 → m ≤ s.params.maxPayload + 8 →
    ∃ t, exec .frmParse s = .next t ∧
      (t.err = 3#4 ↔ m < 6 ∨ s.byteAt .rx 0 ≠ 0xA5#8) ∧
      (t.err = 0#4 ↔ 6 ≤ m ∧ s.byteAt .rx 0 = 0xA5#8)

/-- 42_frame.md R108: truncated frames parse, and so do frames whose payload is complete but whose CRC bytes are
not both present. -/
def Obligations.TruncatedFramesParse : Prop :=
  ∀ (s : State) (m len : Nat), m = (s.reg .rxCount).toNat % 2 ^ 17 →
    len = (s.byteAt .rx 4).toNat * 256 + (s.byteAt .rx 5).toNat →
    m ≤ s.params.maxPayload + 8 → 6 ≤ m → s.byteAt .rx 0 = 0xA5#8 →
    ∃ t, exec .frmParse s = .next t ∧ t.err = 0#4 ∧
      (m < 6 + len →
        (t.reg .rxLen).toNat = len ∧ (t.reg .rxPlen).toNat = m - 6 ∧ t.reg .rxInfo = 0x00000001#32 ∧
          t.reg .rxCrc = 0#32 ∧ t.reg .rxCrcCalc = 0#32) ∧
      (6 + len ≤ m → m < 8 + len →
        t.infoTrunc = false ∧ t.infoCrcPresent = false ∧ t.reg .rxCrc = 0#32 ∧
          t.reg .rxCrcCalc = (crc16 (s.bytesAt .rx 1 (5 + len))).setWidth 32)

/-- 42_frame.md R109: bytes of RX after a complete frame, and how many there are, "change no result". -/
def Obligations.TrailingBytesAreIgnored : Prop :=
  ∀ (s s' : State) (m m' len : Nat), m = (s.reg .rxCount).toNat % 2 ^ 17 →
    m' = (s'.reg .rxCount).toNat % 2 ^ 17 →
    len = (s.byteAt .rx 4).toNat * 256 + (s.byteAt .rx 5).toNat →
    s'.params = s.params → (∀ j, j < 8 + len → s'.byteAt .rx j = s.byteAt .rx j) →
    8 + len ≤ m → 8 + len ≤ m' → m ≤ s.params.maxPayload + 8 → m' ≤ s.params.maxPayload + 8 →
    s.byteAt .rx 0 = 0xA5#8 →
    ∃ t t', exec .frmParse s = .next t ∧ exec .frmParse s' = .next t' ∧
      ∀ r : RegName, r ∈ [RegName.rxCmd, .rxAddr, .rxLen, .rxPlen, .rxCrc, .rxCrcCalc, .rxInfo, .status] →
        t'.reg r = t.reg r

/-- 42_frame.md R107: "the only RX bytes read are RX[0 .. m−1] (never stale bytes beyond RX_COUNT)": two states
with equal registers that agree on those bytes parse to equal registers. -/
def Obligations.ParseReadsOnlyReceivedBytes : Prop :=
  ∀ s s' : State, s'.regs = s.regs → s'.params = s.params →
    (∀ j, j < (s.reg .rxCount).toNat % 2 ^ 17 → s'.byteAt .rx j = s.byteAt .rx j) →
    ∃ t t', exec .frmParse s = .next t ∧ exec .frmParse s' = .next t' ∧ t'.regs = t.regs

/-- 42_frame.md R110: "The received CRC is computed and reported but never validated: no value of RX_CRC or
RX_CRC_CALC, and no value of CRC_MATCH, makes FRM_PARSE fail or changes any other result." Two received frames
that differ in their CRC bytes only succeed alike and differ in RX_CRC and CRC_MATCH only. -/
def Obligations.ReceivedCrcIsNeverValidated : Prop :=
  ∀ (s s' : State) (len : Nat),
    len = (s.byteAt .rx 4).toNat * 256 + (s.byteAt .rx 5).toNat →
    s'.regs = s.regs → s'.params = s.params →
    (∀ j, j ≠ 6 + len → j ≠ 7 + len → s'.byteAt .rx j = s.byteAt .rx j) →
    ∃ t t', exec .frmParse s = .next t ∧ exec .frmParse s' = .next t' ∧
      t'.err = t.err ∧
      (∀ r : RegName, r ∉ [RegName.rxCrc, .rxInfo] → t'.reg r = t.reg r) ∧
      t'.infoTrunc = t.infoTrunc ∧ t'.infoCrcPresent = t.infoCrcPresent

/-- 42_frame.md R114: the round trip. A built frame, copied from TX to RX with RX_COUNT = TX_COUNT, parses back to
its command, address, length and payload with a matching CRC. -/
def Obligations.BuildThenParseRoundTrip : Prop :=
  ∀ (s t u : State) (n : Nat), n = (s.reg .frmLen).toNat % 2 ^ 16 → n ≤ s.params.maxPayload →
    exec .frmBuild s = .next t → u.params = s.params → u.reg .rxCount = t.reg .txCount →
    (∀ j, j < n + 8 → u.byteAt .rx j = t.byteAt .tx j) →
    ∃ v, exec .frmParse u = .next v ∧
      v.err = 0#4 ∧
      (v.reg .rxCmd).toNat = (s.reg .frmCmd).toNat % 2 ^ 8 ∧
      (v.reg .rxAddr).toNat = (s.reg .frmAddr).toNat % 2 ^ 16 ∧
      (v.reg .rxLen).toNat = n ∧ (v.reg .rxPlen).toNat = n ∧
      (∀ i, i < n → v.byteAt .rx (6 + i) = s.byteAt .payload i) ∧
      v.reg .rxCrc = t.reg .frmCrc ∧ v.reg .rxCrcCalc = t.reg .frmCrc ∧
      v.reg .rxInfo = 0x00000006#32

/-- 41_crc.md R91: the CRC unit and the frame codec are separate. FRM_BUILD and FRM_PARSE "never read or write the
CRC register"; "CRC_CLEAR, CRC_BYTE and CRC_BUF never touch a frame register". -/
def Obligations.CrcUnitIsSeparateFromTheFrameCodec : Prop :=
  (∀ (i : Instr) (s : State), i = .frmBuild ∨ i = .frmParse →
    ∃ t, exec i s = .next t ∧ t.reg .crc = s.reg .crc ∧
      ∀ v : Word, exec i (s.setReg .crc v) = .next (t.setReg .crc v)) ∧
  (∀ (i : Instr) (s : State), i = .crcClear ∨ i = .crcByte ∨ i = .crcBuf →
    ∃ t, exec i s = .next t ∧
      ∀ (r : RegName) (v : Word), r ∈ [RegName.frmCmd, .frmAddr, .frmLen, .frmCrc, .txCount, .rxCount, .rxCmd,
        .rxAddr, .rxLen, .rxPlen, .rxCrc, .rxCrcCalc, .rxInfo] →
        t.reg r = s.reg r ∧ exec i (s.setReg r v) = .next (t.setReg r v))

/-! ## Pixels -/

/-- 43_pixel.md R117: PIX_CONV is the words 0x00000020 (RGB565) and 0x00000120 (BGR565); it leaves PIX_565 =
`(r>>3)<<11 | (g>>2)<<5 | (b>>3)` of the channels of PIX_RGB, red and blue exchanged for BGR565, and STATUS 0;
nothing else changes. -/
def Obligations.PixConvConvertsOnePixel : Prop :=
  (∀ w : Word, (decodeCommand w = .ok (.pixConv .rgb565) ↔ w = 0x00000020#32) ∧
    (decodeCommand w = .ok (.pixConv .bgr565) ↔ w = 0x00000120#32)) ∧
  (∀ (s : State) (r g b : Nat), r = (s.reg .pixRgb).toNat / 2 ^ 16 % 2 ^ 8 →
    g = (s.reg .pixRgb).toNat / 2 ^ 8 % 2 ^ 8 → b = (s.reg .pixRgb).toNat % 2 ^ 8 →
    exec (.pixConv .rgb565) s = .next
      ((s.setReg .pix565 (BitVec.ofNat 32 (r / 8 * 2 ^ 11 + g / 4 * 2 ^ 5 + b / 8))).setReg .status
        0x00000000#32) ∧
    exec (.pixConv .bgr565) s = .next
      ((s.setReg .pix565 (BitVec.ofNat 32 (b / 8 * 2 ^ 11 + g / 4 * 2 ^ 5 + r / 8))).setReg .status
        0x00000000#32))

/-- 43_pixel.md R115 and R116: the value of to565 in both orders, and which bits of the channels its fields hold. -/
def Obligations.PixelFieldLayout : Prop :=
  ∀ r g b : Byte,
    (to565 r g b .rgb565).toNat = r.toNat / 2 ^ 3 * 2 ^ 11 + g.toNat / 2 ^ 2 * 2 ^ 5 + b.toNat / 2 ^ 3 ∧
    (to565 r g b .bgr565).toNat = b.toNat / 2 ^ 3 * 2 ^ 11 + g.toNat / 2 ^ 2 * 2 ^ 5 + r.toNat / 2 ^ 3 ∧
    (to565 r g b .rgb565).extractLsb' 11 5 = r.extractLsb' 3 5 ∧
    (to565 r g b .rgb565).extractLsb' 5 6 = g.extractLsb' 2 6 ∧
    (to565 r g b .rgb565).extractLsb' 0 5 = b.extractLsb' 3 5 ∧
    (to565 r g b .bgr565).extractLsb' 11 5 = b.extractLsb' 3 5 ∧
    (to565 r g b .bgr565).extractLsb' 5 6 = g.extractLsb' 2 6 ∧
    (to565 r g b .bgr565).extractLsb' 0 5 = r.extractLsb' 3 5

/-- 43_pixel.md R119 (with the input layout R120, the mapping R121 and the storage R118): PIX_BUF is the words
0x00000021, 0x00000121, 0x00000221 and 0x00000321; with the exact byte count it converts every pixel; with another
count, "in either direction", it sets STATUS = 4 (BYTE_COUNT) and nothing else. -/
def Obligations.PixBufConvertsEveryPixel : Prop :=
  (∀ w : Word, (decodeCommand w = .ok (.pixBuf .rgb565 .rgb888) ↔ w = 0x00000021#32) ∧
    (decodeCommand w = .ok (.pixBuf .bgr565 .rgb888) ↔ w = 0x00000121#32) ∧
    (decodeCommand w = .ok (.pixBuf .rgb565 .rgba8888) ↔ w = 0x00000221#32) ∧
    (decodeCommand w = .ok (.pixBuf .bgr565 .rgba8888) ↔ w = 0x00000321#32)) ∧
  (∀ (s : State) (ord : PixelOrder) (ifmt : InputFormat) (bpp : Nat),
    bpp = (match ifmt with | .rgb888 => 3 | .rgba8888 => 4) →
    ((s.reg .pixinCount).toNat % 2 ^ 18 = s.params.pixels * bpp →
      ∃ t, exec (.pixBuf ord ifmt) s = .next t ∧
        (∀ (i : Nat) (v : Half), i < s.params.pixels →
          v = to565 (s.byteAt .pixin (bpp * i)) (s.byteAt .pixin (bpp * i + 1)) (s.byteAt .pixin (bpp * i + 2))
            ord →
          t.byteAt .pixout (2 * i) = v.extractLsb' 0 8 ∧ t.byteAt .pixout (2 * i + 1) = v.extractLsb' 8 8) ∧
        t.reg .status = 0x00000000#32 ∧
        sameRegsBut s t [.status] ∧
        sameBytesBut s t .pixout 0 (2 * s.params.pixels) ∧
        sameWorld s t) ∧
    ((s.reg .pixinCount).toNat % 2 ^ 18 ≠ s.params.pixels * bpp →
      exec (.pixBuf ord ifmt) s = .next (s.setReg .status 0x00000004#32)))

/-- 43_pixel.md R122: lane i reads only PIXIN[bpp×i .. bpp×i+2], and `{PIXOUT[2i+1], PIXOUT[2i]}` equals what
PIX_CONV with those three channels and the same ORD leaves in PIX_565. -/
def Obligations.PixBufLanesArePixConv : Prop :=
  ∀ (s u : State) (ord : PixelOrder) (ifmt : InputFormat) (bpp i : Nat),
    bpp = (match ifmt with | .rgb888 => 3 | .rgba8888 => 4) → i < s.params.pixels →
    (s.reg .pixinCount).toNat % 2 ^ 18 = s.params.pixels * bpp →
    (u.reg .pixRgb).toNat % 2 ^ 24 =
      (s.byteAt .pixin (bpp * i)).toNat * 2 ^ 16 + (s.byteAt .pixin (bpp * i + 1)).toNat * 2 ^ 8 +
        (s.byteAt .pixin (bpp * i + 2)).toNat →
    ∃ t v, exec (.pixBuf ord ifmt) s = .next t ∧ exec (.pixConv ord) u = .next v ∧
      (t.byteAt .pixout (2 * i + 1)).toNat * 2 ^ 8 + (t.byteAt .pixout (2 * i)).toNat =
        (v.reg .pix565).toNat

/-- 43_pixel.md R120: "an output pixel does not depend on its input's alpha byte". Two states that differ in
alpha bytes only convert to the same PIXOUT. -/
def Obligations.AlphaIsNeverRead : Prop :=
  ∀ (s s' : State) (ord : PixelOrder), s'.regs = s.regs → s'.params = s.params →
    (s.reg .pixinCount).toNat % 2 ^ 18 = s.params.pixels * 4 →
    (∀ j, j % 4 ≠ 3 → s'.byteAt .pixin j = s.byteAt .pixin j) →
    ∃ t t', exec (.pixBuf ord .rgba8888) s = .next t ∧ exec (.pixBuf ord .rgba8888) s' = .next t' ∧
      t'.regs = t.regs ∧
      ∀ k, k < 2 * s.params.pixels → t'.byteAt .pixout k = t.byteAt .pixout k

/-! ## The bus -/

/-- 20_memory.md R55: a read returns the register's value with reserved bits 0; a write to an RW register stores
`WDATA & writable_mask`; a write to CMD stores WDATA unchanged and then starts one command. -/
def Obligations.BusRegisterAccess : Prop :=
  ∀ (s : State) (r : RegName) (w : Word),
    exec (.busRead .word (BitVec.ofNat 20 r.offset)) s =
      .next (s.respond ⟨s.reg r &&& r.fieldMask, .okay⟩) ∧
    (r ∈ [RegName.crcDin, .crcLen, .frmCmd, .frmAddr, .frmLen, .rxCount, .pixRgb, .pixinCount] →
      exec (.busWrite .word (BitVec.ofNat 20 r.offset) w) s =
        .next ((s.setReg r (w &&& r.fieldMask)).respond ⟨0#32, .okay⟩)) ∧
    (∀ i, decodeCommand w = .ok i →
      ∃ t, exec i (s.setReg .cmd w) = .next t ∧
        exec (.busWrite .word 0x00000#20 w) s = .next (t.respond ⟨0#32, .okay⟩)) ∧
    (∀ e, decodeCommand w = .error e →
      exec (.busWrite .word 0x00000#20 w) s =
        .next (((s.setReg .cmd w).setReg .status 0x00000001#32).respond ⟨0#32, .okay⟩))

/-- 20_memory.md R52 and R53. An aligned read of n bytes within a window returns the bytes little-endian,
zero-extended, and changes nothing. An aligned write of n bytes within an RW window stores WDATA[8j+7:8j] at byte
k+j, ignores the rest of WDATA, returns RDATA = 0, and changes nothing else. -/
def Obligations.WindowAccessIsLittleEndian : Prop :=
  ∀ (s : State) (b : Buffer) (k j : Nat) (size : AccessSize), paramsLegal s.params →
    (size, j) ∈ [(AccessSize.byte, 0), (AccessSize.half, 1), (AccessSize.word, 2)] →
    (windowBase b + k) % 2 ^ j = 0 → k + 2 ^ j ≤ capacity s.params b →
    (∃ v : Word,
      v.toNat = ((List.range (2 ^ j)).map fun i => (s.byteAt b (k + i)).toNat * 2 ^ (8 * i)).sum ∧
      exec (.busRead size (BitVec.ofNat 20 (windowBase b + k))) s = .next (s.respond ⟨v, .okay⟩)) ∧
    (b = .payload ∨ b = .rx ∨ b = .pixin → ∀ w : Word,
      ∃ t, exec (.busWrite size (BitVec.ofNat 20 (windowBase b + k)) w) s = .next (t.respond ⟨0#32, .okay⟩) ∧
        (∀ i, i < 2 ^ j → t.byteAt b (k + i) = w.extractLsb' (8 * i) 8) ∧
        sameBytesBut s t b k (2 ^ j) ∧ t.regs = s.regs ∧ sameWorld s t)

/-- 20_memory.md R61: after a write of any width, a read of any width anywhere in the window "sees the ... bytes as
last written, whatever width wrote them": the written bytes where the read meets them, the older bytes elsewhere. -/
def Obligations.MixedWidthsReadBack : Prop :=
  ∀ (s : State) (b : Buffer) (k k' j j' : Nat) (size size' : AccessSize) (w : Word), paramsLegal s.params →
    b = .payload ∨ b = .rx ∨ b = .pixin →
    (size, j) ∈ [(AccessSize.byte, 0), (AccessSize.half, 1), (AccessSize.word, 2)] →
    (size', j') ∈ [(AccessSize.byte, 0), (AccessSize.half, 1), (AccessSize.word, 2)] →
    (windowBase b + k) % 2 ^ j = 0 → k + 2 ^ j ≤ capacity s.params b →
    (windowBase b + k') % 2 ^ j' = 0 → k' + 2 ^ j' ≤ capacity s.params b →
    ∃ t v, exec (.busWrite size (BitVec.ofNat 20 (windowBase b + k)) w) s = .next t ∧
      exec (.busRead size' (BitVec.ofNat 20 (windowBase b + k'))) t = .next (t.respond ⟨v, .okay⟩) ∧
      v.toNat = ((List.range (2 ^ j')).map fun i =>
        (if k ≤ k' + i ∧ k' + i < k + 2 ^ j then w.extractLsb' (8 * (k' + i - k)) 8
          else s.byteAt b (k' + i)).toNat * 2 ^ (8 * i)).sum

/-- 20_memory.md R60: "No read has a side effect", accepted or refused, and "two reads with no write between them
return the same value"; "Every other write", one not to CMD, "is idempotent". -/
def Obligations.ReadsHaveNoEffectAndWritesRepeat : Prop :=
  (∀ (s : State) (size : AccessSize) (off : Offset), ∃ a : Response,
    exec (.busRead size off) s = .next (s.respond a) ∧
    exec (.busRead size off) (s.respond a) = .next ((s.respond a).respond a)) ∧
  (∀ (s : State) (size : AccessSize) (off : Offset) (w : Word), off ≠ 0x00000#20 →
    ∃ (t : State) (a : Response),
    exec (.busWrite size off w) s = .next (t.respond a) ∧
    exec (.busWrite size off w) (t.respond a) = .next ((t.respond a).respond a))

/-- What a write that is not to CMD may change: at most the register at its offset, or at most its own bytes of
the window it falls in (20_memory.md R49, R60). -/
def Obligations.BusWriteFrame : Prop :=
  ∀ (s : State) (size : AccessSize) (off : Offset) (w : Word), off ≠ 0x00000#20 →
    ∃ (t : State) (a : Response), exec (.busWrite size off w) s = .next (t.respond a) ∧ sameWorld s t ∧
      match busTarget s.params size off.toNat with
      | none => t = s ∧ a = ⟨0#32, .buserr⟩
      | some (.register r) => r.offset = off.toNat ∧ sameRegsBut s t [r] ∧ sameBytes s t
      | some (.window b k) =>
        windowBase b + k = off.toNat ∧ sameRegsBut s t [] ∧ sameBytesBut s t b k (accessBytes size)

/-- Who writes the buffers (10_state.md R45): the host never writes TX or PIXOUT, and a CMD write never changes
PAYLOAD, RX or PIXIN. -/
def Obligations.BufferWriters : Prop :=
  ∀ (s t : State) (req wdata : Word) (rest : List HostEvent), s.pending = .bus req wdata :: rest →
    step s = .next t →
    (req ≠ 0x00600000#32 → ∀ k, t.byteAt .tx k = s.byteAt .tx k ∧ t.byteAt .pixout k = s.byteAt .pixout k) ∧
    (req = 0x00600000#32 → ∀ k, t.byteAt .payload k = s.byteAt .payload k ∧
      t.byteAt .rx k = s.byteAt .rx k ∧ t.byteAt .pixin k = s.byteAt .pixin k)

/-- 10_state.md R21 and 20_memory.md R57: the register map and the windows, row by row. -/
def Obligations.AddressMapOfTheSpec : Prop :=
  RegName.all.map (fun r => (r.offset, r.readOnly, r.fieldMask)) =
    [(0x00, false, 0xFFFFFFFF#32), (0x04, true, 0x0000000F#32), (0x08, true, 0x0000FFFF#32),
     (0x0C, false, 0x000000FF#32), (0x10, false, 0x0000FFFF#32), (0x14, false, 0x000000FF#32),
     (0x18, false, 0x0000FFFF#32), (0x1C, false, 0x0000FFFF#32), (0x20, true, 0x0000FFFF#32),
     (0x24, true, 0x0001FFFF#32), (0x28, false, 0x0001FFFF#32), (0x2C, true, 0x000000FF#32),
     (0x30, true, 0x0000FFFF#32), (0x34, true, 0x0000FFFF#32), (0x38, true, 0x0000FFFF#32),
     (0x3C, true, 0x0000FFFF#32), (0x40, true, 0x0000FFFF#32), (0x44, true, 0x00000007#32),
     (0x48, false, 0x00FFFFFF#32), (0x4C, true, 0x0000FFFF#32), (0x50, false, 0x0003FFFF#32)] ∧
  bufferList.map (fun b => (windowBase b, windowAperture b, capacity Config.thisHardware b, windowReadOnly b)) =
    [(0x10000, 0x10000, 1024, false), (0x20000, 0x10000, 1032, true), (0x30000, 0x10000, 1032, false),
     (0x40000, 0x20000, 81920, false), (0x60000, 0x10000, 40960, true)]

/-- 70_reset_and_hazards.md R145, with the registers at reset values and whatever the buffers hold: CRC_BUF leaves
CRC 0, FRM_BUILD writes the frame A5 00 00 00 00 00 00 00, FRM_PARSE fails with MALFORMED_FRAME, PIX_BUF fails
with BYTE_COUNT. -/
def Obligations.CommandsRightAfterReset : Prop :=
  ∀ s : State, paramsLegal s.params → (∀ r : RegName, s.reg r = 0#32) →
    exec .crcBuf s = .next s ∧
    (∃ t, exec .frmBuild s = .next t ∧ t.bytesAt .tx 0 8 = [0xA5#8, 0, 0, 0, 0, 0, 0, 0] ∧
      (t.reg .txCount).toNat = 8 ∧ t.err = 0#4) ∧
    exec .frmParse s = .next (s.setReg .status 0x00000003#32) ∧
    (∀ ord ifmt, exec (.pixBuf ord ifmt) s = .next (s.setReg .status 0x00000004#32))
end

