-- ==== Sys2Proof/Laws/Decode.lean ====
section
/-! SUPPORT. The fields of a word built from fields, and the word built from its own fields. -/

namespace Sys2Proof

variable (opc : BitVec 8) (ord ifmt we : BitVec 1) (size : BitVec 2) (off : Offset)

/-! ### The command word -/

theorem cmdOpcode_commandWord : cmdOpcode (commandWord opc ord ifmt) = opc := by
  ext i hi
  simp [cmdOpcode, commandWord, show i < 32 by omega, hi, show i < 9 by omega, BitVec.getLsbD_eq_getElem]

theorem cmdOrd_commandWord : cmdOrd (commandWord opc ord ifmt) = ord := by
  ext i hi
  obtain rfl : i = 0 := by omega
  simp [cmdOrd, commandWord]

theorem cmdIfmt_commandWord : cmdIfmt (commandWord opc ord ifmt) = ifmt := by
  ext i hi
  obtain rfl : i = 0 := by omega
  simp [cmdIfmt, commandWord]

theorem cmdReserved_commandWord : cmdReserved (commandWord opc ord ifmt) = 0#22 := by
  ext i hi
  simp only [cmdReserved, commandWord, BitVec.getElem_extractLsb', BitVec.getLsbD_or, BitVec.getLsbD_shiftLeft,
    BitVec.getLsbD_setWidth, BitVec.getElem_zero]
  rw [BitVec.getLsbD_of_ge opc _ (by omega), BitVec.getLsbD_of_ge ord _ (by omega),
    BitVec.getLsbD_of_ge ifmt _ (by omega)]
  simp

/-- A word whose reserved bits are 0 is the word of its three other fields (30_encoding.md R72). -/
theorem commandWord_fields {w : Word} (h : cmdReserved w = 0#22) :
    commandWord (cmdOpcode w) (cmdOrd w) (cmdIfmt w) = w := by
  have hz : ∀ j, 10 ≤ j → j < 32 → w.getLsbD j = false := by
    intro j h1 h2
    have := congrArg (fun x => x.getLsbD (j - 10)) h
    simpa [cmdReserved, show j - 10 < 22 by omega, show 10 + (j - 10) = j by omega] using this
  ext i hi
  rw [← BitVec.getLsbD_eq_getElem, ← BitVec.getLsbD_eq_getElem]
  by_cases h8 : i < 8
  · simp [cmdOpcode, cmdOrd, cmdIfmt, commandWord, h8, show i < 9 by omega, hi]
  by_cases h8 : i = 8
  · subst h8; simp [cmdOpcode, cmdOrd, cmdIfmt, commandWord]
  by_cases h9 : i = 9
  · subst h9; simp [cmdOpcode, cmdOrd, cmdIfmt, commandWord]
  simp [cmdOpcode, cmdOrd, cmdIfmt, commandWord, (BitVec.getLsbD_eq_getElem hi).symm.trans (hz i (by omega) hi), hi, show ¬ i < 8 by omega,
    show ¬ i - 8 = 0 by omega, show ¬ i - 9 = 0 by omega]

/-! ### Cases of the command decoder -/

theorem bit_cases (b : BitVec 1) : b = 0#1 ∨ b = 1#1 := by revert b; decide

/-- Everything the opcode map can answer (30_encoding.md R73). -/
theorem opcodeInstr_cases {opc : BitVec 8} {ord ifmt : BitVec 1} {i : Instr}
    (h : opcodeInstr opc ord ifmt = some i) :
    (opc = 0x21#8 ∧ i = .pixBuf (.ofBit ord) (.ofBit ifmt)) ∨
    (ifmt = 0#1 ∧ opc = 0x20#8 ∧ i = .pixConv (.ofBit ord)) ∨
    (ifmt = 0#1 ∧ ord = 0#1 ∧
      ((opc = 0x00#8 ∧ i = .nop) ∨ (opc = 0x01#8 ∧ i = .crcClear) ∨ (opc = 0x02#8 ∧ i = .crcByte) ∨
       (opc = 0x03#8 ∧ i = .crcBuf) ∨ (opc = 0x10#8 ∧ i = .frmBuild) ∨ (opc = 0x11#8 ∧ i = .frmParse))) := by
  unfold opcodeInstr at h
  repeat' split at h
  all_goals first | (cases h; simp_all) | cases h

/-- Everything the command decoder can answer (30_encoding.md R74). -/
theorem decodeCommand_cases (w : Word) :
    decodeCommand w = .error .illegalCommandWord ∨
    (cmdReserved w = 0#22 ∧ ∃ i, opcodeInstr (cmdOpcode w) (cmdOrd w) (cmdIfmt w) = some i ∧
      decodeCommand w = .ok i) := by
  unfold decodeCommand
  by_cases h : cmdReserved w = 0#22
  · cases ho : opcodeInstr (cmdOpcode w) (cmdOrd w) (cmdIfmt w) <;> simp [h]
  · simp [h]

/-! ### The fields as numbers -/

theorem toNat_cmdReserved (w : Word) : (cmdReserved w).toNat = w.toNat / 2 ^ 10 := by
  simp [cmdReserved, BitVec.extractLsb'_toNat, Nat.shiftRight_eq_div_pow]; omega

theorem toNat_cmdOpcode (w : Word) : (cmdOpcode w).toNat = w.toNat % 2 ^ 8 := by
  simp [cmdOpcode, BitVec.extractLsb'_toNat]

theorem toNat_cmdOrd (w : Word) : (cmdOrd w).toNat = w.toNat / 2 ^ 8 % 2 := by
  simp [cmdOrd, BitVec.extractLsb'_toNat, Nat.shiftRight_eq_div_pow]

theorem toNat_cmdIfmt (w : Word) : (cmdIfmt w).toNat = w.toNat / 2 ^ 9 % 2 := by
  simp [cmdIfmt, BitVec.extractLsb'_toNat, Nat.shiftRight_eq_div_pow]

theorem toNat_reqReserved (w : Word) : (reqReserved w).toNat = w.toNat / 2 ^ 23 := by
  simp [reqReserved, BitVec.extractLsb'_toNat, Nat.shiftRight_eq_div_pow]; omega

theorem toNat_reqWriteEnable (w : Word) : (reqWriteEnable w).toNat = w.toNat / 2 ^ 22 % 2 := by
  simp [reqWriteEnable, BitVec.extractLsb'_toNat, Nat.shiftRight_eq_div_pow]

theorem toNat_reqSize (w : Word) : (reqSize w).toNat = w.toNat / 2 ^ 20 % 4 := by
  simp [reqSize, BitVec.extractLsb'_toNat, Nat.shiftRight_eq_div_pow]

theorem toNat_reqOffset (w : Word) : (reqOffset w).toNat = w.toNat % 2 ^ 20 := by
  simp [reqOffset, BitVec.extractLsb'_toNat]

/-! ### The request word -/

theorem reqOffset_requestWord : reqOffset (requestWord we size off) = off := by
  ext i hi
  simp [reqOffset, requestWord, show i < 32 by omega, hi, show i < 22 by omega, BitVec.getLsbD_eq_getElem]

theorem reqSize_requestWord : reqSize (requestWord we size off) = size := by
  ext i hi
  have h : i = 0 ∨ i = 1 := by omega
  rcases h with rfl | rfl <;> simp [reqSize, requestWord, BitVec.getLsbD_eq_getElem]

theorem reqWriteEnable_requestWord : reqWriteEnable (requestWord we size off) = we := by
  ext i hi
  obtain rfl : i = 0 := by omega
  simp [reqWriteEnable, requestWord]

theorem reqReserved_requestWord : reqReserved (requestWord we size off) = 0#9 := by
  ext i hi
  simp only [reqReserved, requestWord, BitVec.getElem_extractLsb', BitVec.getLsbD_or, BitVec.getLsbD_shiftLeft,
    BitVec.getLsbD_setWidth, BitVec.getElem_zero]
  rw [BitVec.getLsbD_of_ge we _ (by omega), BitVec.getLsbD_of_ge size _ (by omega),
    BitVec.getLsbD_of_ge off _ (by omega)]
  simp

/-- A request whose reserved bits are 0 is the word of its three other fields (30_encoding.md R70). -/
theorem requestWord_fields {w : Word} (h : reqReserved w = 0#9) :
    requestWord (reqWriteEnable w) (reqSize w) (reqOffset w) = w := by
  have hz : ∀ j, 23 ≤ j → j < 32 → w.getLsbD j = false := by
    intro j h1 h2
    have := congrArg (fun x => x.getLsbD (j - 23)) h
    simpa [reqReserved, show j - 23 < 9 by omega, show 23 + (j - 23) = j by omega] using this
  ext i hi
  rw [← BitVec.getLsbD_eq_getElem, ← BitVec.getLsbD_eq_getElem]
  by_cases h20 : i < 20
  · simp [reqOffset, reqSize, reqWriteEnable, requestWord, h20, show i < 22 by omega, hi]
  by_cases h22 : i < 22
  · simp [reqOffset, reqSize, reqWriteEnable, requestWord, h20, h22, hi, show i - 20 < 2 by omega,
      show 20 + (i - 20) = i by omega]
  by_cases h22 : i = 22
  · subst h22; simp [reqOffset, reqSize, reqWriteEnable, requestWord]
  simp [reqOffset, reqSize, reqWriteEnable, requestWord, (BitVec.getLsbD_eq_getElem hi).symm.trans (hz i (by omega) hi), hi, show ¬ i < 20 by omega,
    show ¬ i - 22 = 0 by omega, show ¬ i - 20 < 2 by omega]

/-- Everything the request decoder can answer (30_encoding.md R71). -/
theorem decodeRequest_cases (req wdata : Word) :
    (reqReserved req ≠ 0#9 ∧ decodeRequest req wdata = .error .reservedRequestBits) ∨
    (reqReserved req = 0#9 ∧ reqWriteEnable req = 0#1 ∧
      decodeRequest req wdata = .ok (.busRead (.ofBits (reqSize req)) (reqOffset req))) ∨
    (reqReserved req = 0#9 ∧ reqWriteEnable req = 1#1 ∧
      decodeRequest req wdata = .ok (.busWrite (.ofBits (reqSize req)) (reqOffset req) wdata)) := by
  unfold decodeRequest
  by_cases h : reqReserved req = 0#9
  · rcases bit_cases (reqWriteEnable req) with h' | h' <;> simp [h, h']
  · simp [h]

/-! ### The one- and two-bit selectors -/

theorem PixelOrder.ofBit_bit (o : PixelOrder) : PixelOrder.ofBit o.bit = o := by cases o <;> rfl

theorem InputFormat.ofBit_bit (f : InputFormat) : InputFormat.ofBit f.bit = f := by cases f <;> rfl

theorem AccessSize.ofBits_bits (z : AccessSize) : AccessSize.ofBits z.bits = z := by cases z <;> rfl

theorem PixelOrder.bit_ofBit (b : BitVec 1) : (PixelOrder.ofBit b).bit = b := by
  revert b; decide

theorem InputFormat.bit_ofBit (b : BitVec 1) : (InputFormat.ofBit b).bit = b := by
  revert b; decide

theorem AccessSize.bits_ofBits (b : BitVec 2) : (AccessSize.ofBits b).bits = b := by
  revert b; decide

end Sys2Proof
end

