-- ==== Sys2Proof/Laws/State.lean ====
section
/-! SUPPORT. One lemma per field per update, and how the accessors see each update. -/

namespace Sys2Proof.Machine

variable (s : State) (r : RegName) (v : Word) (b : Buffer) (k : Nat) (bs : List Byte) (a : Response)

/-! ### Registers -/

theorem Regs.get_set (g : Regs) (r r' : RegName) (v : Word) :
    (g.set r v).get r' = if r' = r then v else g.get r' := by
  cases r <;> cases r' <;> rfl

@[simp] theorem Regs.get_atReset : Regs.atReset.get r = 0#32 := by cases r <;> rfl

theorem Regs.eta (g : Regs) :
    g = ⟨g.get .cmd, g.get .status, g.get .crc, g.get .crcDin, g.get .crcLen, g.get .frmCmd, g.get .frmAddr,
      g.get .frmLen, g.get .frmCrc, g.get .txCount, g.get .rxCount, g.get .rxCmd, g.get .rxAddr, g.get .rxLen,
      g.get .rxPlen, g.get .rxCrc, g.get .rxCrcCalc, g.get .rxInfo, g.get .pixRgb, g.get .pix565,
      g.get .pixinCount⟩ := rfl

theorem Regs.ext_get {g g' : Regs} (h : ∀ r, g.get r = g'.get r) : g = g' := by
  rw [Regs.eta g, Regs.eta g']; simp only [h]

theorem State.reg_setReg (s : State) (r r' : RegName) (v : Word) :
    (s.setReg r v).reg r' = if r' = r then v else s.reg r' := Regs.get_set _ _ _ _

@[simp] theorem State.reg_setReg_same : (s.setReg r v).reg r = v := by simp [State.reg_setReg]

theorem State.reg_setReg_ne {r' : RegName} (h : r' ≠ r) : (s.setReg r v).reg r' = s.reg r' := by
  simp [State.reg_setReg, h]

@[simp] theorem State.bufs_setReg : (s.setReg r v).bufs = s.bufs := rfl
@[simp] theorem State.params_setReg : (s.setReg r v).params = s.params := rfl
@[simp] theorem State.epoch_setReg : (s.setReg r v).epoch = s.epoch := rfl
@[simp] theorem State.pending_setReg : (s.setReg r v).pending = s.pending := rfl
@[simp] theorem State.responses_setReg : (s.setReg r v).responses = s.responses := rfl
@[simp] theorem State.byteAt_setReg : (s.setReg r v).byteAt b k = s.byteAt b k := rfl

theorem Regs.set_set (g : Regs) (r : RegName) (v w : Word) : (g.set r v).set r w = g.set r w := by
  cases r <;> rfl

@[simp] theorem State.setReg_setReg (w : Word) : (s.setReg r v).setReg r w = s.setReg r w := by
  simp [State.setReg, Regs.set_set]

@[simp] theorem State.bufs_setRegs (l : List (RegName × Word)) : (s.setRegs l).bufs = s.bufs := rfl
@[simp] theorem State.params_setRegs (l : List (RegName × Word)) : (s.setRegs l).params = s.params := rfl
@[simp] theorem State.epoch_setRegs (l : List (RegName × Word)) : (s.setRegs l).epoch = s.epoch := rfl
@[simp] theorem State.pending_setRegs (l : List (RegName × Word)) : (s.setRegs l).pending = s.pending := rfl
@[simp] theorem State.responses_setRegs (l : List (RegName × Word)) :
    (s.setRegs l).responses = s.responses := rfl
@[simp] theorem State.byteAt_setRegs (l : List (RegName × Word)) : (s.setRegs l).byteAt b k = s.byteAt b k := rfl

theorem State.reg_setRegs_nil : (s.setRegs []).reg r = s.reg r := rfl

/-- The last write of a list decides. -/
theorem State.reg_setRegs_cons (e : RegName × Word) (l : List (RegName × Word)) :
    (s.setRegs (e :: l)).reg r = ((s.setReg e.1 e.2).setRegs l).reg r := rfl

/-! ### Buffers -/

theorem Buffers.get_set (u : Buffers) (b b' : Buffer) (m : Memory) :
    (u.set b m).get b' = if b' = b then m else u.get b' := by
  cases b <;> cases b' <;> rfl

theorem Buffers.set_set (u : Buffers) (b : Buffer) (m m' : Memory) : (u.set b m).set b m' = u.set b m' := by
  cases b <;> rfl

@[simp] theorem Buffers.get_atReset : Buffers.atReset.get b = [] := by cases b <;> rfl

@[simp] theorem State.regs_storeBytes : (s.storeBytes b k bs).regs = s.regs := rfl
@[simp] theorem State.reg_storeBytes : (s.storeBytes b k bs).reg r = s.reg r := rfl
@[simp] theorem State.params_storeBytes : (s.storeBytes b k bs).params = s.params := rfl
@[simp] theorem State.epoch_storeBytes : (s.storeBytes b k bs).epoch = s.epoch := rfl
@[simp] theorem State.pending_storeBytes : (s.storeBytes b k bs).pending = s.pending := rfl
@[simp] theorem State.responses_storeBytes : (s.storeBytes b k bs).responses = s.responses := rfl

/-! ### Responses -/

@[simp] theorem State.regs_respond : (s.respond a).regs = s.regs := rfl
@[simp] theorem State.reg_respond : (s.respond a).reg r = s.reg r := rfl
@[simp] theorem State.bufs_respond : (s.respond a).bufs = s.bufs := rfl
@[simp] theorem State.params_respond : (s.respond a).params = s.params := rfl
@[simp] theorem State.epoch_respond : (s.respond a).epoch = s.epoch := rfl
@[simp] theorem State.pending_respond : (s.respond a).pending = s.pending := rfl
@[simp] theorem State.responses_respond : (s.respond a).responses = a :: s.responses := rfl
@[simp] theorem State.byteAt_respond : (s.respond a).byteAt b k = s.byteAt b k := rfl

/-! ### Taking an event off the queue -/

@[simp] theorem State.regs_withPending (l : List HostEvent) : (s.withPending l).regs = s.regs := rfl
@[simp] theorem State.reg_withPending (l : List HostEvent) : (s.withPending l).reg r = s.reg r := rfl
@[simp] theorem State.bufs_withPending (l : List HostEvent) : (s.withPending l).bufs = s.bufs := rfl
@[simp] theorem State.byteAt_withPending (l : List HostEvent) :
    (s.withPending l).byteAt b k = s.byteAt b k := rfl
@[simp] theorem State.params_withPending (l : List HostEvent) : (s.withPending l).params = s.params := rfl
@[simp] theorem State.epoch_withPending (l : List HostEvent) : (s.withPending l).epoch = s.epoch := rfl
@[simp] theorem State.pending_withPending (l : List HostEvent) : (s.withPending l).pending = l := rfl
@[simp] theorem State.responses_withPending (l : List HostEvent) :
    (s.withPending l).responses = s.responses := rfl

@[simp] theorem State.withPending_withPending (l l' : List HostEvent) :
    (s.withPending l).withPending l' = s.withPending l' := rfl

/-! ### Reset -/

@[simp] theorem reg_applyReset : (applyReset s).reg r = 0#32 := Regs.get_atReset r
@[simp] theorem params_applyReset : (applyReset s).params = s.params := rfl
@[simp] theorem epoch_applyReset : (applyReset s).epoch = s.epoch + 1 := rfl
@[simp] theorem pending_applyReset : (applyReset s).pending = s.pending := rfl
@[simp] theorem responses_applyReset : (applyReset s).responses = s.responses := rfl
@[simp] theorem bufs_applyReset : (applyReset s).bufs = Buffers.atReset := rfl

end Sys2Proof.Machine
end

