-- ==== Sys2Proof/Laws/Memory.lean ====
section
/-! SUPPORT. What a store does to a buffer: the stored bytes read back, every other byte reads as before, and the
canonical form is kept. -/

namespace Sys2Proof.Machine

theorem Memory.written_append (m m' : Memory) (k : Nat) :
    Memory.written (m ++ m') k = (Memory.written m k).or (Memory.written m' k) := by
  induction m with
  | nil => simp [Memory.written, Memory.unlisted]
  | cons c m ih =>
    obtain ⟨a, x⟩ := c
    by_cases h : a = k <;> simp [Memory.written, h, ih]

theorem Memory.written_filter (m : Memory) (p : Nat → Bool) (k : Nat) :
    Memory.written (m.filter fun c => p c.1) k = if p k then Memory.written m k else none := by
  induction m with
  | nil => simp [Memory.written, Memory.unlisted]
  | cons c m ih =>
    obtain ⟨a, x⟩ := c
    by_cases hp : p a = true <;> by_cases h : a = k
    · subst h; simp [Memory.written, hp]
    · simp [Memory.written, hp, h, ih]
    · subst h; simp [hp, ih]
    · simp [Memory.written, hp, h, ih]

theorem Memory.written_cells (k : Nat) (bs : List Byte) (j : Nat) :
    Memory.written (Memory.cells k bs) j = if k ≤ j then bs[j - k]? else none := by
  induction bs generalizing k with
  | nil => simp [Memory.cells, Memory.written, Memory.unlisted]
  | cons x bs ih =>
    rw [Memory.cells, Memory.written, ih]
    by_cases h : k = j
    · subst h; simp
    · by_cases h' : k ≤ j
      · have e : j - k = (j - (k + 1)) + 1 := by omega
        simp [h, h', show k + 1 ≤ j by omega, e]
      · simp [h, h', show ¬ k + 1 ≤ j by omega]

/-- Everything a store does to what is written. -/
theorem Memory.written_store (m : Memory) (k : Nat) (bs : List Byte) (j : Nat) :
    (m.store k bs).written j =
      if k ≤ j ∧ j < k + bs.length then bs[j - k]? else m.written j := by
  have h1 := Memory.written_filter m (fun a => decide (a < k)) j
  have h2 := Memory.written_filter m (fun a => decide (k + bs.length ≤ a)) j
  rw [Memory.store, Memory.written_append, Memory.written_append, h1, h2, Memory.written_cells]
  by_cases hlt : j < k
  · simp [hlt, show ¬ k ≤ j by omega, show ¬ k + bs.length ≤ j by omega]
  · by_cases hge : k + bs.length ≤ j
    · have e : bs[j - k]? = none := List.getElem?_eq_none (by omega)
      simp [hlt, hge, show k ≤ j by omega, e]
    · have e : (bs[j - k]?).isSome := by
        rw [List.getElem?_eq_getElem (by omega)]; rfl
      obtain ⟨x, hx⟩ := Option.isSome_iff_exists.1 e
      simp [hlt, hge, show k ≤ j by omega, show j < k + bs.length by omega, hx]

theorem Memory.cells_mem {k : Nat} {bs : List Byte} {c : Host.Cell} (h : c ∈ Memory.cells k bs) :
    k ≤ c.1 ∧ c.1 < k + bs.length := by
  induction bs generalizing k with
  | nil => simp [Memory.cells] at h
  | cons x bs ih =>
    rw [Memory.cells, List.mem_cons] at h
    rcases h with rfl | h
    · simp
    · have := ih h; simp only [List.length_cons]; omega

theorem Memory.cells_rising (k : Nat) (bs : List Byte) :
    (Memory.cells k bs).Pairwise (fun c d => c.1 < d.1) := by
  induction bs generalizing k with
  | nil => exact List.Pairwise.nil
  | cons x bs ih =>
    refine List.Pairwise.cons (fun c hc => ?_) (ih _)
    have := Memory.cells_mem hc
    simp only; omega

theorem Memory.nil_wf : Memory.wf [] := ⟨List.Pairwise.nil, by simp⟩

/-- A store keeps the canonical form. -/
theorem Memory.store_wf {m : Memory} (h : m.wf) (k : Nat) (bs : List Byte) : (m.store k bs).wf := by
  refine ⟨?_, fun c _ => by simp [Memory.unlisted]⟩
  rw [Memory.store, List.pairwise_append, List.pairwise_append]
  refine ⟨h.1.filter _, ⟨Memory.cells_rising k bs, h.1.filter _, ?_⟩, ?_⟩
  · intro c hc d hd
    have h1 := Memory.cells_mem hc
    have h2 := of_decide_eq_true (List.mem_filter.1 hd).2
    omega
  · intro c hc d hd
    have h1 := of_decide_eq_true (List.mem_filter.1 hc).2
    rcases List.mem_append.1 hd with hd | hd
    · have := Memory.cells_mem hd; omega
    · have h2 := of_decide_eq_true (List.mem_filter.1 hd).2
      omega

/-- A store below the capacity keeps every written index below it. -/
theorem Memory.store_below {m : Memory} {cap : Nat} (h : m.below cap) {k : Nat} {bs : List Byte}
    (hk : k + bs.length ≤ cap) : (m.store k bs).below cap := by
  intro c hc
  rw [Memory.store, List.mem_append, List.mem_append] at hc
  rcases hc with hc | hc | hc
  · exact h c (List.mem_filter.1 hc).1
  · have := Memory.cells_mem hc; omega
  · exact h c (List.mem_filter.1 hc).1

/-- A second store at the same indices replaces the first. -/
theorem Memory.store_store (m : Memory) (k : Nat) (bs cs : List Byte) (hl : bs.length = cs.length) :
    (m.store k bs).store k cs = m.store k cs := by
  have h1 : (Memory.cells k bs).filter (fun c => decide (c.1 < k)) = [] :=
    List.filter_eq_nil_iff.mpr fun c hc => by have := Memory.cells_mem hc; simp; omega
  have h2 : (Memory.cells k bs).filter (fun c => decide (k + cs.length ≤ c.1)) = [] :=
    List.filter_eq_nil_iff.mpr fun c hc => by have := Memory.cells_mem hc; simp; omega
  have h3 : (m.filter fun c => decide (k + cs.length ≤ c.1)).filter (fun c => decide (c.1 < k)) = [] :=
    List.filter_eq_nil_iff.mpr fun c hc => by have := of_decide_eq_true (List.mem_filter.1 hc).2; simp; omega
  have h4 : (m.filter fun c => decide (c.1 < k)).filter (fun c => decide (k + cs.length ≤ c.1)) = [] :=
    List.filter_eq_nil_iff.mpr fun c hc => by have := of_decide_eq_true (List.mem_filter.1 hc).2; simp; omega
  simp only [Memory.store, hl, List.filter_append, h1, h2, h3, h4, List.nil_append, List.append_nil]
  simp [List.filter_filter]

/-! ### Reads of the machine's buffers -/

/-- Everything a store does to the machine's bytes. -/
theorem State.byteAt_storeBytes (s : State) (b : Buffer) (k : Nat) (bs : List Byte) (b' : Buffer) (j : Nat) :
    (s.storeBytes b k bs).byteAt b' j =
      if b' = b ∧ k ≤ j ∧ j < k + bs.length then bs.getD (j - k) 0 else s.byteAt b' j := by
  by_cases hb : b' = b
  · subst hb
    by_cases hj : k ≤ j ∧ j < k + bs.length
    · simp [State.byteAt, State.storeBytes, Buffers.get_set, Memory.written_store, hj,
        List.getElem?_eq_getElem (show j - k < bs.length by omega)]
    · simp [State.byteAt, State.storeBytes, Buffers.get_set, Memory.written_store, hj]
  · simp [State.byteAt, State.storeBytes, Buffers.get_set, hb]

theorem State.byteAt_storeBytes_inside (s : State) (b : Buffer) (k : Nat) (bs : List Byte) {j : Nat}
    (h : j < bs.length) : (s.storeBytes b k bs).byteAt b (k + j) = bs.getD j 0 := by
  rw [State.byteAt_storeBytes]; simp [h]

theorem State.byteAt_storeBytes_outside (s : State) (b : Buffer) (k : Nat) (bs : List Byte) {b' : Buffer}
    {j : Nat} (h : b' ≠ b ∨ j < k ∨ k + bs.length ≤ j) :
    (s.storeBytes b k bs).byteAt b' j = s.byteAt b' j := by
  rw [State.byteAt_storeBytes, if_neg]
  rintro ⟨h1, h2, h3⟩
  rcases h with h | h | h
  · exact h h1
  · omega
  · omega

@[simp] theorem State.length_bytesAt (s : State) (b : Buffer) (k n : Nat) : (s.bytesAt b k n).length = n := by
  simp [State.bytesAt]

theorem State.getD_bytesAt (s : State) (b : Buffer) (k n : Nat) {j : Nat} (h : j < n) :
    (s.bytesAt b k n).getD j 0 = s.byteAt b (k + j) := by
  simp [State.bytesAt, h]

theorem State.bytesAt_congr {s t : State} {b b' : Buffer} {k k' n : Nat}
    (h : ∀ j, j < n → s.byteAt b (k + j) = t.byteAt b' (k' + j)) : s.bytesAt b k n = t.bytesAt b' k' n := by
  refine List.map_congr_left fun j hj => h j (List.mem_range.1 hj)

@[simp] theorem State.bytesAt_setReg (s : State) (r : RegName) (v : Word) (b : Buffer) (k n : Nat) :
    (s.setReg r v).bytesAt b k n = s.bytesAt b k n := rfl

@[simp] theorem State.bytesAt_respond (s : State) (a : Response) (b : Buffer) (k n : Nat) :
    (s.respond a).bytesAt b k n = s.bytesAt b k n := rfl

/-- Stored bytes read back as one sequence. -/
theorem State.bytesAt_storeBytes_same (s : State) (b : Buffer) (k : Nat) (bs : List Byte) :
    (s.storeBytes b k bs).bytesAt b k bs.length = bs := by
  refine List.ext_getElem (by simp) fun j h1 h2 => ?_
  have := State.byteAt_storeBytes_inside s b k bs h2
  simp [State.bytesAt, this, h2]

theorem State.storeBytes_storeBytes (s : State) (b : Buffer) (k : Nat) (bs cs : List Byte)
    (hl : bs.length = cs.length) : (s.storeBytes b k bs).storeBytes b k cs = s.storeBytes b k cs := by
  simp [State.storeBytes, Buffers.get_set, Buffers.set_set, Memory.store_store _ _ _ _ hl]
/-- After a reset every byte is the draw of the new reset (70_reset_and_hazards.md R142). -/
@[simp] theorem byteAt_applyReset (s : State) (b : Buffer) (k : Nat) :
    (applyReset s).byteAt b k = Config.resetByte (s.epoch + 1) b k := by
  simp [State.byteAt, Memory.written, Memory.unlisted]

/-- Every memory at reset is canonical. -/
theorem reset_memory_wf (b : Buffer) : (State.reset.bufs.get b).wf := by
  cases b <;> exact Memory.nil_wf

end Sys2Proof.Machine
end

