-- ==== Sys2Proof/Laws/Commands.lean ====
section
/-! SUPPORT. One lemma for each shared operation and each command: everything it can do to a register, a byte and
the rest of the state. -/

namespace Sys2Proof.Machine

variable (s : State) (r : RegName) (b : Buffer) (k : Nat)

/-! ### The ways a command ends -/

theorem reg_succeed : (succeed s).reg r = if r = .status then 0#32 else s.reg r :=
  State.reg_setReg _ _ _ _

theorem reg_raiseError (e : ErrorCode) :
    (raiseError e s).reg r = if r = .status then e.statusWord else s.reg r := State.reg_setReg _ _ _ _

@[simp] theorem byteAt_succeed : (succeed s).byteAt b k = s.byteAt b k := rfl
@[simp] theorem byteAt_raiseError (e : ErrorCode) : (raiseError e s).byteAt b k = s.byteAt b k := rfl
@[simp] theorem params_succeed : (succeed s).params = s.params := rfl
@[simp] theorem params_raiseError (e : ErrorCode) : (raiseError e s).params = s.params := rfl
@[simp] theorem bufs_succeed : (succeed s).bufs = s.bufs := rfl
@[simp] theorem bufs_raiseError (e : ErrorCode) : (raiseError e s).bufs = s.bufs := rfl
@[simp] theorem epoch_succeed : (succeed s).epoch = s.epoch := rfl
@[simp] theorem epoch_raiseError (e : ErrorCode) : (raiseError e s).epoch = s.epoch := rfl
@[simp] theorem pending_succeed : (succeed s).pending = s.pending := rfl
@[simp] theorem pending_raiseError (e : ErrorCode) : (raiseError e s).pending = s.pending := rfl
@[simp] theorem responses_succeed : (succeed s).responses = s.responses := rfl
@[simp] theorem responses_raiseError (e : ErrorCode) : (raiseError e s).responses = s.responses := rfl

/-! ### What a command computes depends on the registers it reads only -/

@[simp] theorem crcValue_setReg (v : Word) (h : r ≠ .crc) : (s.setReg r v).crcValue = s.crcValue := by
  rw [State.crcValue, State.reg_setReg_ne _ _ _ h.symm]; rfl

/-! ### The frame -/

@[simp] theorem length_frameCovered (cmd : Byte) (addr : Half) (payload : List Byte) :
    (frameCovered cmd addr payload).length = payload.length + 5 := by
  simp [frameCovered]

@[simp] theorem length_frameBytes (cmd : Byte) (addr : Half) (payload : List Byte) :
    (frameBytes cmd addr payload).length = payload.length + 8 := by
  simp [frameBytes]

@[simp] theorem length_framePayload : s.framePayload.length = s.frmLenCount := by
  simp [State.framePayload]

/-- Everything FRM_BUILD can do. -/
theorem runFrmBuild_cases :
    (s.params.maxPayload < s.frmLenCount ∧ runFrmBuild s = raiseError .length s) ∨
    (s.frmLenCount ≤ s.params.maxPayload ∧
      runFrmBuild s = succeed ((s.storeBytes .tx 0
        (frameBytes s.frmCmdByte s.frmAddrHalf s.framePayload)).setRegs
        [(.txCount, BitVec.ofNat 32 (s.frmLenCount + 8)),
         (.frmCrc, (frameCrc s.frmCmdByte s.frmAddrHalf s.framePayload).setWidth 32)])) := by
  by_cases h : s.params.maxPayload < s.frmLenCount
  · exact .inl ⟨h, by simp [runFrmBuild, h]⟩
  · exact .inr ⟨by omega, by simp [runFrmBuild, h]⟩

/-- Everything CRC_BUF can do. -/
theorem runCrcBuf_cases :
    (s.params.maxPayload < s.crcLenCount ∧ runCrcBuf s = raiseError .length s) ∨
    (s.crcLenCount ≤ s.params.maxPayload ∧
      runCrcBuf s = succeed (s.setReg .crc
        ((crcFrom s.crcValue (s.bytesAt .payload 0 s.crcLenCount)).setWidth 32))) := by
  by_cases h : s.params.maxPayload < s.crcLenCount
  · exact .inl ⟨h, by simp [runCrcBuf, h]⟩
  · exact .inr ⟨by omega, by simp [runCrcBuf, h]⟩

/-- Everything FRM_PARSE can do. -/
theorem runFrmParse_cases :
    (capacity s.params .rx < s.rxCountCount ∧ runFrmParse s = raiseError .length s) ∨
    (s.rxCountCount ≤ capacity s.params .rx ∧ (s.rxCountCount < 6 ∨ s.byteAt .rx 0 ≠ frameMarker) ∧
      runFrmParse s = raiseError .malformedFrame s) ∨
    (s.rxCountCount ≤ capacity s.params .rx ∧ 6 ≤ s.rxCountCount ∧ s.byteAt .rx 0 = frameMarker ∧
      runFrmParse s = succeed (writeParsed s)) := by
  by_cases h : capacity s.params .rx < s.rxCountCount
  · exact .inl ⟨h, by simp [runFrmParse, h]⟩
  by_cases h6 : s.rxCountCount < 6
  · exact .inr (.inl ⟨by omega, .inl h6, by simp [runFrmParse, h, h6]⟩)
  by_cases hm : s.byteAt .rx 0 = frameMarker
  · exact .inr (.inr ⟨by omega, by omega, hm, by simp [runFrmParse, h, h6, hm]⟩)
  · exact .inr (.inl ⟨by omega, .inr hm, by simp [runFrmParse, h, h6, hm]⟩)

/-- Everything PIX_BUF can do. -/
theorem runPixBuf_cases (ord : PixelOrder) (ifmt : InputFormat) :
    (s.pixinCountCount ≠ s.params.pixels * bytesPerPixel ifmt ∧
      runPixBuf ord ifmt s = raiseError .byteCount s) ∨
    (s.pixinCountCount = s.params.pixels * bytesPerPixel ifmt ∧
      runPixBuf ord ifmt s = succeed (s.storeBytes .pixout 0 (s.convertedBytes ord ifmt))) := by
  by_cases h : s.pixinCountCount = s.params.pixels * bytesPerPixel ifmt
  · exact .inr ⟨h, by simp [runPixBuf, h]⟩
  · exact .inl ⟨h, by simp [runPixBuf, h]⟩

/-- Everything a successful parse writes. -/
theorem reg_writeParsed : (writeParsed s).reg r =
    match r with
    | .rxCmd => (s.byteAt .rx 1).setWidth 32
    | .rxAddr => (pair (s.byteAt .rx 2) (s.byteAt .rx 3)).setWidth 32
    | .rxLen => s.declaredLen.setWidth 32
    | .rxPlen => BitVec.ofNat 32 s.parsePlen
    | .rxCrc => s.parseRcrc.setWidth 32
    | .rxCrcCalc => s.parseCalc.setWidth 32
    | .rxInfo => rxInfoWord s.parseTrunc s.parsePresent s.parseMatch
    | _ => s.reg r := by
  cases r <;> simp [writeParsed, State.reg_setRegs_cons, State.reg_setRegs_nil, State.reg_setReg]

@[simp] theorem bufs_writeParsed : (writeParsed s).bufs = s.bufs := by
  unfold writeParsed; exact State.bufs_setRegs _ _
@[simp] theorem byteAt_writeParsed : (writeParsed s).byteAt b k = s.byteAt b k := by
  unfold writeParsed; exact State.byteAt_setRegs _ _ _ _
@[simp] theorem params_writeParsed : (writeParsed s).params = s.params := by
  unfold writeParsed; exact State.params_setRegs _ _
@[simp] theorem epoch_writeParsed : (writeParsed s).epoch = s.epoch := by
  unfold writeParsed; exact State.epoch_setRegs _ _
@[simp] theorem pending_writeParsed : (writeParsed s).pending = s.pending := by
  unfold writeParsed; exact State.pending_setRegs _ _
@[simp] theorem responses_writeParsed : (writeParsed s).responses = s.responses := by
  unfold writeParsed; exact State.responses_setRegs _ _

/-! ### Pixels -/

theorem length_flatMap_pixelBytes (n : Nat) (f : Nat → Half) :
    ((List.range n).flatMap fun i => pixelBytes (f i)).length = 2 * n := by
  induction n with
  | zero => rfl
  | succ n ih => rw [List.range_succ, List.flatMap_append, List.length_append, ih]; simp [pixelBytes]; omega

@[simp] theorem length_convertedBytes (ord : PixelOrder) (ifmt : InputFormat) :
    (s.convertedBytes ord ifmt).length = 2 * s.params.pixels := length_flatMap_pixelBytes _ _

theorem getElem?_flatMap_pixelBytes (n : Nat) (f : Nat → Half) {i : Nat} (h : i < n) :
    ((List.range n).flatMap fun i => pixelBytes (f i))[2 * i]? = some (lowByte (f i)) ∧
    ((List.range n).flatMap fun i => pixelBytes (f i))[2 * i + 1]? = some (highByte (f i)) := by
  induction n with
  | zero => omega
  | succ n ih =>
    rw [List.range_succ, List.flatMap_append]
    have hl := length_flatMap_pixelBytes n f
    by_cases hi : i < n
    · rw [List.getElem?_append_left (by omega), List.getElem?_append_left (by omega)]
      exact ih hi
    · have e : i = n := by omega
      subst e
      rw [List.getElem?_append_right (by omega), List.getElem?_append_right (by omega), hl]
      simp [pixelBytes]

/-- The two output bytes of lane `i` (43_pixel.md R118, R119). -/
theorem getD_convertedBytes (ord : PixelOrder) (ifmt : InputFormat) {i : Nat} (h : i < s.params.pixels) :
    (s.convertedBytes ord ifmt).getD (2 * i) 0 = lowByte (s.lanePixel ord ifmt i) ∧
    (s.convertedBytes ord ifmt).getD (2 * i + 1) 0 = highByte (s.lanePixel ord ifmt i) := by
  obtain ⟨h1, h2⟩ := getElem?_flatMap_pixelBytes s.params.pixels (s.lanePixel ord ifmt) h
  rw [List.getD_eq_getElem?_getD, List.getD_eq_getElem?_getD]
  exact ⟨by rw [State.convertedBytes, h1]; rfl, by rw [State.convertedBytes, h2]; rfl⟩

/-! ### Every instruction answers a next state -/

theorem exec_nop : exec .nop s = .next (runNop s) := rfl
theorem exec_crcClear : exec .crcClear s = .next (runCrcClear s) := rfl
theorem exec_crcByte : exec .crcByte s = .next (runCrcByte s) := rfl
theorem exec_crcBuf : exec .crcBuf s = .next (runCrcBuf s) := rfl
theorem exec_frmBuild : exec .frmBuild s = .next (runFrmBuild s) := rfl
theorem exec_frmParse : exec .frmParse s = .next (runFrmParse s) := rfl
theorem exec_pixConv (ord : PixelOrder) : exec (.pixConv ord) s = .next (runPixConv ord s) := rfl
theorem exec_pixBuf (ord : PixelOrder) (ifmt : InputFormat) :
    exec (.pixBuf ord ifmt) s = .next (runPixBuf ord ifmt s) := rfl
theorem exec_busRead (size : AccessSize) (off : Offset) :
    exec (.busRead size off) s = .next (runBusRead size off s) := rfl
theorem exec_busWrite (size : AccessSize) (off : Offset) (wdata : Word) :
    exec (.busWrite size off wdata) s = .next (runBusWrite size off wdata s) := rfl

/-- The command the decoder reads is the command that runs (40_command.md R85). -/
theorem executeCommand_of_decode {w : Word} {i : Instr} (h : decodeCommand w = .ok i)
    (hi : i.isCommand = true) : exec i s = .next (executeCommand w s) := by
  unfold executeCommand
  rw [h]
  cases i <;> first | rfl | cases hi

/-- A command word never decodes to a bus transaction. -/
theorem isCommand_of_decode {w : Word} {i : Instr} (h : decodeCommand w = .ok i) : i.isCommand = true := by
  rcases decodeCommand_cases w with h' | ⟨_, j, hj, h'⟩
  · rw [h'] at h; cases h
  · rw [h'] at h; cases h
    rcases opcodeInstr_cases hj with
      ⟨_, rfl⟩ | ⟨_, _, rfl⟩ | ⟨_, _, ⟨_, rfl⟩ | ⟨_, rfl⟩ | ⟨_, rfl⟩ | ⟨_, rfl⟩ | ⟨_, rfl⟩ | ⟨_, rfl⟩⟩ <;> rfl

/-- A word that no row matches runs ILLEGAL (40_command.md R85, R89). -/
theorem executeCommand_of_error {w : Word} {e : DecodeError} (h : decodeCommand w = .error e) :
    executeCommand w s = s.setReg .status 0x00000001#32 := by
  unfold executeCommand
  rw [h]
  rfl

end Sys2Proof.Machine
end

