-- ==== Sys2Proof/Laws/Bus.lean ====
section
/-! SUPPORT. What an offset names, and everything a bus transaction can do. -/

namespace Sys2Proof.Machine

variable (s : State) (r : RegName) (b : Buffer) (k : Nat)

/-! ### Registers and windows by offset -/

theorem registerAt_offset : registerAt r.offset = some r := by cases r <;> rfl

theorem offset_of_registerAt {off : Nat} {r : RegName} (h : registerAt off = some r) : r.offset = off := by
  simpa using List.find?_some h

theorem registerAt_eq_some {off : Nat} {r : RegName} : registerAt off = some r ↔ r.offset = off :=
  ⟨offset_of_registerAt, fun h => h ▸ registerAt_offset r⟩

theorem offset_le : r.offset ≤ 0x50 := by cases r <;> decide

theorem offset_aligned : r.offset % 4 = 0 := by cases r <;> rfl

theorem mem_bufferList : b ∈ bufferList := by cases b <;> decide

/-- The apertures are disjoint: an offset lies in at most one (20_memory.md R56). -/
theorem aperture_unique {off : Nat} {b b' : Buffer} (h : inAperture b off) (h' : inAperture b' off) :
    b' = b := by
  obtain ⟨h1, h2⟩ := h
  obtain ⟨h3, h4⟩ := h'
  cases b <;> cases b' <;> first | rfl | (simp only [windowBase, windowAperture] at h1 h2 h3 h4; omega)

theorem windowAt_eq_some {off : Nat} {b : Buffer} : windowAt off = some b ↔ inAperture b off := by
  constructor
  · intro h; simpa [inAperture] using List.find?_some h
  · intro h
    cases hw : windowAt off with
    | none => exact absurd h (by simpa [inAperture] using List.find?_eq_none.1 hw b (mem_bufferList b))
    | some b' =>
      have h' : inAperture b' off := by simpa [inAperture] using List.find?_some hw
      rw [aperture_unique h h']

theorem base_gt : 0x000FF < windowBase b := by cases b <;> decide

/-- What the size of an access is (20_memory.md R50). -/
theorem accessBytes_cases (size : AccessSize) :
    (size = .byte ∧ accessBytes size = 1) ∨ (size = .half ∧ accessBytes size = 2) ∨
    (size = .word ∧ accessBytes size = 4) ∨ (size = .reserved ∧ accessBytes size = 8) := by
  cases size <;> decide

/-- When a request names a register (20_memory.md R49, R54). -/
theorem busTarget_register {p : Config.Params} {size : AccessSize} {off : Nat} {r : RegName} :
    busTarget p size off = some (.register r) ↔ size = .word ∧ off = r.offset := by
  constructor
  · intro h
    unfold busTarget at h
    split at h
    · cases h
    split at h
    · cases h
    split at h
    · split at h
      · cases h
      · rename_i h4
        rcases accessBytes_cases size with ⟨rfl, h'⟩ | ⟨rfl, h'⟩ | ⟨rfl, h'⟩ | ⟨rfl, h'⟩
        · exact absurd (by rw [h'] at h4; omega) h4
        · exact absurd (by rw [h'] at h4; omega) h4
        · cases hr : registerAt off with
          | none => simp [hr] at h
          | some r' =>
            simp only [hr, Option.map_some, Option.some.injEq, Target.register.injEq] at h
            subst h
            exact ⟨rfl, (offset_of_registerAt hr).symm⟩
        · exact absurd (by rw [h'] at h4; omega) h4
    · split at h
      · cases h
      · split at h <;> cases h
  · rintro ⟨rfl, rfl⟩
    have h1 := offset_le r
    have h2 := offset_aligned r
    have h3 : accessBytes .word = 4 := rfl
    simp [busTarget, h3, h2, show r.offset ≤ 255 by omega, registerAt_offset]

/-- When a request names bytes of a window (20_memory.md R49, R57). -/
theorem busTarget_window {p : Config.Params} {size : AccessSize} {off : Nat} {b : Buffer} {k : Nat} :
    busTarget p size off = some (.window b k) ↔
      size ≠ .reserved ∧ off % accessBytes size = 0 ∧ inAperture b off ∧ windowBase b + k = off ∧
        k + accessBytes size ≤ capacity p b := by
  constructor
  · intro h
    unfold busTarget at h
    split at h
    · cases h
    rename_i h1
    split at h
    · cases h
    rename_i h2
    split at h
    · split at h
      · cases h
      · cases hr : registerAt off <;> simp [hr] at h
    split at h
    · cases h
    rename_i b' hb
    split at h
    · cases h
    rename_i hc
    cases h
    have hin := windowAt_eq_some.1 hb
    have := hin.1
    exact ⟨h1, by omega, hin, by omega, by omega⟩
  · rintro ⟨h1, h2, h3, rfl, h5⟩
    have h4 := base_gt b
    simp [busTarget, h1, h2, show ¬ windowBase b + k ≤ 255 by omega, windowAt_eq_some.2 h3,
      show ¬ capacity p b < k + accessBytes size by omega]

/-- A buffer's bytes lie in its window's aperture (20_memory.md R57: "The parameter bounds ... make every
capacity fit its aperture"). -/
theorem inAperture_of_lt_capacity {p : Config.Params} (hp : paramsLegal p) {b : Buffer} {k : Nat}
    (h : k < capacity p b) : inAperture b (windowBase b + k) := by
  obtain ⟨_, h2, _, h4⟩ := hp
  refine ⟨by omega, ?_⟩
  cases b <;> simp only [capacity] at h <;> simp only [windowBase, windowAperture] <;> omega

/-- Offsets within a window are 20-bit offsets (20_memory.md R56). -/
theorem toNat_windowOffset {p : Config.Params} (hp : paramsLegal p) {b : Buffer} {k : Nat}
    (h : k < capacity p b) : (BitVec.ofNat 20 (windowBase b + k)).toNat = windowBase b + k := by
  obtain ⟨_, h'⟩ := inAperture_of_lt_capacity hp h
  rw [BitVec.toNat_ofNat, Nat.mod_eq_of_lt]
  cases b <;> simp only [windowBase, windowAperture] at h' ⊢ <;> omega

theorem toNat_registerOffset : (BitVec.ofNat 20 r.offset).toNat = r.offset := by
  cases r <;> rfl

/-! ### The transactions -/

theorem runBusRead_of_none {size : AccessSize} {off : Offset} (h : busTarget s.params size off.toNat = none) :
    runBusRead size off s = s.respond ⟨0#32, .buserr⟩ := by simp [runBusRead, h, busError]

theorem runBusRead_of_some {size : AccessSize} {off : Offset} {t : Target}
    (h : busTarget s.params size off.toNat = some t) :
    runBusRead size off s = s.respond ⟨s.readTarget size t, .okay⟩ := by simp [runBusRead, h, returnOkay]

theorem runBusWrite_of_none {size : AccessSize} {off : Offset} {w : Word}
    (h : busTarget s.params size off.toNat = none) :
    runBusWrite size off w s = s.respond ⟨0#32, .buserr⟩ := by simp [runBusWrite, h, busError]

theorem runBusWrite_of_readOnly {size : AccessSize} {off : Offset} {w : Word} {t : Target}
    (h : busTarget s.params size off.toNat = some t) (hr : t.readOnly = true) :
    runBusWrite size off w s = s.respond ⟨0#32, .buserr⟩ := by simp [runBusWrite, h, hr, busError]

theorem runBusWrite_of_writable {size : AccessSize} {off : Offset} {w : Word} {t : Target}
    (h : busTarget s.params size off.toNat = some t) (hr : t.readOnly = false) :
    runBusWrite size off w s = (writeTarget size w t s).respond ⟨0#32, .okay⟩ := by
  simp [runBusWrite, h, hr, returnOkay]

theorem hostWriteReg_cmd (w : Word) : s.hostWriteReg .cmd w = s.setReg .cmd w := by
  have h : w &&& 0xFFFFFFFF#32 = w := by
    rw [show (0xFFFFFFFF#32) = BitVec.allOnes 32 from rfl, BitVec.and_allOnes]
  simp [State.hostWriteReg, RegName.fieldMask, h]

/-- A 4-byte write at offset 0x00 stores the word and runs its command (40_command.md R85). -/
theorem exec_cmdWrite (w : Word) :
    exec (.busWrite .word 0x00000#20 w) s =
      .next ((executeCommand w (s.setReg .cmd w)).respond ⟨0#32, .okay⟩) := by
  have h : busTarget s.params .word (0x00000#20).toNat = some (.register .cmd) :=
    busTarget_register.2 ⟨rfl, rfl⟩
  rw [exec_busWrite, runBusWrite_of_writable s h rfl]
  simp [writeTarget, hostWriteReg_cmd]

/-- Everything BUS_WRITE can do (20_memory.md R49): refused because the request names nothing or names something
read-only; the CMD write; a register write; a window write. -/
theorem runBusWrite_cases (size : AccessSize) (off : Offset) (w : Word) :
    (busTarget s.params size off.toNat = none ∧ runBusWrite size off w s = s.respond ⟨0#32, .buserr⟩) ∨
    (∃ t, busTarget s.params size off.toNat = some t ∧ t.readOnly = true ∧
      runBusWrite size off w s = s.respond ⟨0#32, .buserr⟩) ∨
    (size = .word ∧ off = 0x00000#20 ∧ busTarget s.params size off.toNat = some (.register .cmd) ∧
      runBusWrite size off w s = (executeCommand w (s.setReg .cmd w)).respond ⟨0#32, .okay⟩) ∨
    (∃ r, r ≠ .cmd ∧ r.readOnly = false ∧ busTarget s.params size off.toNat = some (.register r) ∧
      runBusWrite size off w s = (s.setReg r (w &&& r.fieldMask)).respond ⟨0#32, .okay⟩) ∨
    (∃ b k, windowReadOnly b = false ∧ busTarget s.params size off.toNat = some (.window b k) ∧
      runBusWrite size off w s =
        (s.storeBytes b k (bytesOfWord (accessBytes size) w)).respond ⟨0#32, .okay⟩) := by
  cases h : busTarget s.params size off.toNat with
  | none => exact .inl ⟨rfl, runBusWrite_of_none s h⟩
  | some t =>
    by_cases hr : t.readOnly = true
    · exact .inr (.inl ⟨t, rfl, hr, runBusWrite_of_readOnly s h hr⟩)
    have hr : t.readOnly = false := by simpa using hr
    have e := runBusWrite_of_writable s (w := w) h hr
    cases t with
    | register r =>
      by_cases hc : r = .cmd
      · subst hc
        obtain ⟨h1, h2⟩ := busTarget_register.1 h
        refine .inr (.inr (.inl ⟨h1, ?_, rfl, ?_⟩))
        · exact BitVec.eq_of_toNat_eq (by simpa [RegName.offset] using h2)
        · rw [e]; simp [writeTarget, hostWriteReg_cmd]
      · exact .inr (.inr (.inr (.inl ⟨r, hc, hr, rfl, by rw [e]; simp [writeTarget, hc, State.hostWriteReg]⟩)))
    | window b k => exact .inr (.inr (.inr (.inr ⟨b, k, hr, rfl, by rw [e]; rfl⟩)))

@[simp] theorem length_bytesOfWord (n : Nat) (w : Word) : (bytesOfWord n w).length = n := by
  induction n generalizing w with
  | zero => rfl
  | succ n ih => simp [bytesOfWord, ih]

/-- Byte `j` of a write is `WDATA[8*j+7 : 8*j]` (20_memory.md R49). -/
theorem getD_bytesOfWord {n j : Nat} (w : Word) (h : j < n) :
    (bytesOfWord n w).getD j 0 = w.extractLsb' (8 * j) 8 := by
  induction n generalizing w j with
  | zero => omega
  | succ n ih =>
    cases j with
    | zero => simp [bytesOfWord]
    | succ j =>
      rw [bytesOfWord, List.getD_cons_succ, ih _ (by omega)]
      ext i hi
      simp [show 8 + (8 * j + i) = 8 * (j + 1) + i by omega]

end Sys2Proof.Machine
end

