-- ==== Sys2Proof/Laws/PerInstr.lean ====
section
/-! SUPPORT. Statements about every instruction as syntax, one lemma per constructor. RowMatch: the first word of an
instruction's encoding matches its own row of spec/opcode_table.json. -/

namespace Sys2Proof.Laws.RowMatch

/-- The first word of an encoded instruction. -/
def firstWord : CodeWord → Word
  | .cmd w => w
  | .req w _ => w

/-- The (mask, match) of an instruction's row in spec/opcode_table.json. -/
def row : Instr → Word × Word
  | .nop => (0xFFFFFFFF#32, 0x00000000#32)
  | .crcClear => (0xFFFFFFFF#32, 0x00000001#32)
  | .crcByte => (0xFFFFFFFF#32, 0x00000002#32)
  | .crcBuf => (0xFFFFFFFF#32, 0x00000003#32)
  | .frmBuild => (0xFFFFFFFF#32, 0x00000010#32)
  | .frmParse => (0xFFFFFFFF#32, 0x00000011#32)
  | .pixConv _ => (0xFFFFFEFF#32, 0x00000020#32)
  | .pixBuf _ _ => (0xFFFFFCFF#32, 0x00000021#32)
  | .busRead _ _ => (0xFFC00000#32, 0x00000000#32)
  | .busWrite _ _ _ => (0xFFC00000#32, 0x00400000#32)

/-- The first word matches the row. -/
def Statement (i : Instr) : Prop := firstWord (encode i) &&& (row i).1 = (row i).2

/-- The bits above SIZE and OFF are WE and zeros (30_encoding.md R70). -/
theorem requestWord_high (we : BitVec 1) (size : BitVec 2) (off : Offset) :
    requestWord we size off &&& 0xFFC00000#32 = we.setWidth 32 <<< 22 := by
  have hm : ∀ i : Fin 32, (0xFFC00000#32)[i.1] = decide (22 ≤ i.1) := by decide
  ext i hi
  by_cases h : i < 22
  · simp [requestWord, h, hm ⟨i, hi⟩, show ¬ 22 ≤ i by omega]
  · simp [requestWord, h, hm ⟨i, hi⟩, show 22 ≤ i by omega,
      BitVec.getLsbD_of_ge size (i - 20) (by omega), BitVec.getLsbD_of_ge off i (by omega)]

theorem nop : Statement .nop := rfl
theorem crcClear : Statement .crcClear := rfl
theorem crcByte : Statement .crcByte := rfl
theorem crcBuf : Statement .crcBuf := rfl
theorem frmBuild : Statement .frmBuild := rfl
theorem frmParse : Statement .frmParse := rfl
theorem pixConv (ord : PixelOrder) : Statement (.pixConv ord) := by cases ord <;> rfl
theorem pixBuf (ord : PixelOrder) (ifmt : InputFormat) : Statement (.pixBuf ord ifmt) := by
  cases ord <;> cases ifmt <;> rfl
theorem busRead (size : AccessSize) (off : Offset) : Statement (.busRead size off) :=
  requestWord_high 0#1 size.bits off
theorem busWrite (size : AccessSize) (off : Offset) (wdata : Word) : Statement (.busWrite size off wdata) :=
  requestWord_high 1#1 size.bits off

end Sys2Proof.Laws.RowMatch
end

