-- ==== Sys2Proof/Tests/Slice0.lean ====
section
/-! SUPPORT. The smoke tests of WellFormed, one word per constructor written out from the spec's encoding, small
one-step tests whose expected values are the spec's (95_test_vectors.md), and for every statement that has
hypotheses a named witness that meets them. -/

namespace Sys2Proof.Tests

open Sys2Proof.Machine

/- One proof at a time: the evaluations below would each take a thread of their own. -/
set_option Elab.async false

/-! ### Helpers -/

/-- Whether the outcome is a next state that `p` accepts. -/
def after (o : Host.Outcome State Fault Refusal) (p : State → Bool) : Bool :=
  match o with
  | .next t => p t
  | .fault _ => false
  | .refused _ => false

/-- The state after reset with P_PIXELS = 2, the parameter value of the vectors of 95_test_vectors.md L2.6. -/
def base : State := { State.reset with params := ⟨1024, 2⟩ }

/-- `base` with registers and bytes of one buffer set. -/
def start (regs : List (RegName × Word)) (b : Buffer) (bs : List Byte) : State :=
  (base.setRegs regs).storeBytes b 0 bs

/-- "PROGRAM" (95_test_vectors.md V-CRC-1). -/
def program : List Byte := [0x50, 0x52, 0x4F, 0x47, 0x52, 0x41, 0x4D]

/-- The bytes of V-FP-1 (95_test_vectors.md). -/
def ackFrame : List Byte := [0xA5, 0xEE, 0x00, 0x00, 0x00, 0x01, 0x59, 0xF3, 0x76]

/-- PIXIN of 95_test_vectors.md L2.6. -/
def pixels : List Byte := [0xFF, 0x00, 0x00, 0xAA, 0x12, 0x34, 0x56, 0x00]

/-! ### WellFormed refuses the reserved SIZE (30_encoding.md R70) and nothing else -/

theorem test_wellFormed_refuses_read_size3 : (Instr.busRead .reserved 0x00008#20).wellFormed = false := by decide

theorem test_wellFormed_refuses_write_size3 :
    (Instr.busWrite .reserved 0x10000#20 0#32).wellFormed = false := by decide

theorem test_wellFormed_accepts_every_command :
    [Instr.nop, .crcClear, .crcByte, .crcBuf, .frmBuild, .frmParse, .pixConv .bgr565, .pixBuf .rgb565 .rgba8888,
      .busRead .byte 0xFFFFF#20, .busWrite .half 0x00001#20 7#32].all Instr.wellFormed = true := by decide

/-! ### One word per constructor, bit by bit from 30_encoding.md R70, R72, R73 -/

theorem test_decode_nop : decodeCommand 0b00000000000000000000000000000000#32 = .ok .nop := by decide
theorem test_decode_crcClear : decodeCommand 0b00000000000000000000000000000001#32 = .ok .crcClear := by decide
theorem test_decode_crcByte : decodeCommand 0b00000000000000000000000000000010#32 = .ok .crcByte := by decide
theorem test_decode_crcBuf : decodeCommand 0b00000000000000000000000000000011#32 = .ok .crcBuf := by decide
theorem test_decode_frmBuild : decodeCommand 0b00000000000000000000000000010000#32 = .ok .frmBuild := by decide
theorem test_decode_frmParse : decodeCommand 0b00000000000000000000000000010001#32 = .ok .frmParse := by decide
theorem test_decode_pixConv :
    decodeCommand 0b00000000000000000000000100100000#32 = .ok (.pixConv .bgr565) := by decide
theorem test_decode_pixBuf :
    decodeCommand 0b00000000000000000000001000100001#32 = .ok (.pixBuf .rgb565 .rgba8888) := by decide

/-- WE = 0, SIZE = 01, OFF = 0x1000C (`rd.h PAYLOAD+12`). -/
theorem test_decode_busRead :
    decodeRequest 0b00000000000100010000000000001100#32 5#32 = .ok (.busRead .half 0x1000C#20) := by decide

/-- WE = 1, SIZE = 10, OFF = 0x30004 (`wr.w RX+4`). -/
theorem test_decode_busWrite :
    decodeRequest 0b00000000011000110000000000000100#32 0x764F0400#32 =
      .ok (.busWrite .word 0x30004#20 0x764F0400#32) := by decide

/-- V-CT-2 to V-CT-10 and V-PC-15 (95_test_vectors.md): ILLEGAL command words. -/
theorem test_decode_illegal :
    [0x00000103#32, 0x00000004#32, 0x000000FF#32, 0x00000400#32, 0x80000001#32, 0xFFFFFFFF#32, 0x00000102#32,
      0x00000012#32, 0x00000022#32, 0x00000220#32].all
      (fun w => decide (decodeCommand w = .error .illegalCommandWord)) = true := by decide

/-- V-BUS-10 (95_test_vectors.md): reserved request bits. -/
theorem test_decode_reserved_request :
    decodeRequest 0x00A00008#32 0#32 = .error .reservedRequestBits := by decide

/-- The table's words, one row each (spec/opcode_table.json), as decodeTableWord reads them (log entry 7). -/
theorem test_decodeTableWord :
    decodeTableWord 32 0x00000003 = some .crcBuf ∧
    decodeTableWord 32 0x00000120 = some (.pixConv .bgr565) ∧
    decodeTableWord 32 0x00200008 = some (.busRead .word 0x00008#20) ∧
    decodeTableWord 32 0x00610000 = some (.busWrite .word 0x10000#20 0#32) ∧
    decodeTableWord 64 0x474F525000610000 = some (.busWrite .word 0x10000#20 0x474F5250#32) ∧
    decodeTableWord 32 0x00A00008 = none := by decide

/-! ### One step of each instruction, with the values of 95_test_vectors.md -/

/-- V-CT-1. -/
theorem test_nop :
    after (exec .nop (start [(.status, 3)] .rx [])) (fun t => decide (t = start [] .rx [])) = true := by decide

/-- V-CC-1. -/
theorem test_crcClear :
    after (exec .crcClear (start [(.crc, 0xCD59), (.status, 3)] .rx []))
      (fun t => decide (t.reg .crc = 0 ∧ t.err = 0)) = true := by decide

/-- V-CC-2. -/
theorem test_crcByte :
    after (exec .crcByte (start [(.crc, 0x1234), (.crcDin, 0x56)] .rx []))
      (fun t => decide (t.reg .crc = 0x3C40 ∧ t.reg .crcDin = 0x56)) = true := by decide +kernel

/-- V-CC-6: the accumulator is not cleared. -/
theorem test_crcBuf_accumulates :
    after (exec .crcBuf (start [(.crc, 0xCD59), (.crcLen, 7)] .payload program))
      (fun t => decide (t.reg .crc = 0x6930 ∧ t.err = 0)) = true := by decide +kernel

/-- V-CC-8. -/
theorem test_crcBuf_length :
    after (exec .crcBuf (start [(.crc, 0xABCD), (.crcLen, 1025)] .payload program))
      (fun t => decide (t.reg .crc = 0xABCD ∧ t.err = 2)) = true := by decide +kernel

/-- V-FB-1, with V-FB-15. -/
theorem test_frmBuild :
    after (exec .frmBuild (start [(.frmCmd, 0x04), (.frmAddr, 0x4504), (.frmLen, 6), (.crc, 0x1234)] .payload
        [0x00, 0x00, 0x0C, 0x00, 0x00, 0x01]))
      (fun t => decide (t.bytesAt .tx 0 14 =
          [0xA5, 0x04, 0x45, 0x04, 0x00, 0x06, 0x00, 0x00, 0x0C, 0x00, 0x00, 0x01, 0x83, 0xF4] ∧
        t.reg .frmCrc = 0x83F4 ∧ t.reg .txCount = 14 ∧ t.reg .crc = 0x1234)) = true := by decide +kernel

/-- V-FB-12. -/
theorem test_frmBuild_length :
    after (exec .frmBuild (start [(.frmLen, 1025), (.txCount, 14)] .tx [0xA5]))
      (fun t => decide (t.err = 2 ∧ t.reg .txCount = 14 ∧ t.byteAt .tx 0 = 0xA5)) = true := by decide +kernel

/-- V-FP-1. -/
theorem test_frmParse :
    after (exec .frmParse (start [(.rxCount, 9)] .rx ackFrame))
      (fun t => decide (t.err = 0 ∧ t.reg .rxCmd = 0xEE ∧ t.reg .rxAddr = 0 ∧ t.reg .rxLen = 1 ∧
        t.reg .rxPlen = 1 ∧ t.reg .rxCrc = 0xF376 ∧ t.reg .rxCrcCalc = 0xF376 ∧ t.reg .rxInfo = 6)) = true := by
  decide +kernel

/-- V-FP-7: a truncated payload. -/
theorem test_frmParse_truncated :
    after (exec .frmParse (start [(.rxCount, 7)] .rx [0xA5, 0x57, 0x00, 0x05, 0x00, 0x02, 0x11]))
      (fun t => decide (t.err = 0 ∧ t.reg .rxAddr = 5 ∧ t.reg .rxLen = 2 ∧ t.reg .rxPlen = 1 ∧
        t.reg .rxCrcCalc = 0 ∧ t.reg .rxInfo = 1)) = true := by decide +kernel

/-- V-PC-6 in both orders. -/
theorem test_pixConv :
    (after (exec (.pixConv .rgb565) (start [(.pixRgb, 0x123456)] .rx []))
        (fun t => decide (t.reg .pix565 = 0x11AA)) &&
      after (exec (.pixConv .bgr565) (start [(.pixRgb, 0x123456)] .rx []))
        (fun t => decide (t.reg .pix565 = 0x51A2))) = true := by decide +kernel

/-- V-PB-2 and V-PB-3. -/
theorem test_pixBuf :
    (after (exec (.pixBuf .bgr565 .rgb888) (start [(.pixinCount, 6)] .pixin pixels))
        (fun t => decide (t.bytesAt .pixout 0 4 = [0x1F, 0x00, 0x95, 0x30])) &&
      after (exec (.pixBuf .rgb565 .rgba8888) (start [(.pixinCount, 8)] .pixin pixels))
        (fun t => decide (t.bytesAt .pixout 0 4 = [0x00, 0xF8, 0xAA, 0x11]))) = true := by decide +kernel

/-- V-PB-7. -/
theorem test_pixBuf_byteCount :
    after (exec (.pixBuf .rgb565 .rgba8888) (start [(.pixinCount, 9)] .pixin pixels))
      (fun t => decide (t.err = 4 ∧ t.bufs.pixout = [])) = true := by decide +kernel

/-- P2: `rd.w TX+0` over A5 04 45 04. -/
theorem test_busRead_lanes :
    after (exec (.busRead .word 0x20000#20) (start [] .tx [0xA5, 0x04, 0x45, 0x04]))
      (fun t => decide (t.responses = [⟨0x044504A5, .okay⟩])) = true := by decide +kernel

/-- V-BUS-2, V-BUS-6, V-BUS-13 (with P_MAX_PAYLOAD = 1024). -/
theorem test_busRead_refused :
    [(AccessSize.half, 0x00008#20), (.word, 0x10400#20), (.word, 0x70000#20)].all
      (fun x => after (exec (.busRead x.1 x.2) base) (fun t => decide (t = base.respond ⟨0, .buserr⟩))) = true := by
  decide +kernel

/-- V-BUS-15 and V-BUS-19. -/
theorem test_busWrite :
    (after (exec (.busWrite .word 0x0000C#20 0x1234ABCD#32) base)
        (fun t => decide (t.reg .crcDin = 0xCD ∧ t.responses = [⟨0, .okay⟩])) &&
      after (exec (.busWrite .word 0x10000#20 0x474F5250#32) base)
        (fun t => decide (t.bytesAt .payload 0 4 = [0x50, 0x52, 0x4F, 0x47]))) = true := by decide +kernel

/-- V-CT-8 and V-BUS-20: an illegal command word sets ERR and nothing runs; a narrow CMD write is refused. -/
theorem test_busWrite_cmd :
    (after (exec (.busWrite .word 0x00000#20 0x00000102#32) (start [(.crcDin, 0x4F)] .rx []))
        (fun t => decide (t.err = 1 ∧ t.reg .cmd = 0x102 ∧ t.reg .crc = 0)) &&
      after (exec (.busWrite .half 0x00000#20 1#32) (start [(.crc, 7)] .rx []))
        (fun t => decide (t.reg .crc = 7 ∧ t.reg .cmd = 0 ∧ t.responses = [⟨0, .buserr⟩]))) = true := by
  decide +kernel

/-- A table word runs as the first step after reset: FRM_BUILD leaves TX_COUNT = 8 (V-FB-10). -/
theorem test_step_withFetchWord :
    after (step (State.reset.withFetchWord 32 0x00000010))
      (fun t => decide (t.reg .txCount = 8 ∧ t.reg .cmd = 0x10 ∧ t.pending = [])) = true := by decide +kernel

/-- A reset step zeroes the registers and moves on to new draws (70_reset_and_hazards.md R141, R142). -/
theorem test_step_reset :
    after (step ((start [(.crc, 7)] .rx [0xA5]).withPending [.reset]))
      (fun t => decide (t.reg .crc = 0 ∧ t.bufs.rx = [] ∧ t.epoch = 1)) = true := by decide +kernel

/-! ### Witnesses: for every statement with hypotheses, a state and operands that meet them -/

/-- A CMD write of NOP is next. -/
def nopNext : State := State.reset.withPending [.bus 0x00600000#32 0#32]

/-- One word for each way to be illegal, none of which a row matches, and one word that a row matches. -/
theorem witness_IllegalWordOnlySetsErr :
    (0x00000400#32).toNat / 2 ^ 10 ≠ 0 ∧
    (0x00000004#32).toNat % 256 ∉ [0x00, 0x01, 0x02, 0x03, 0x10, 0x11, 0x20, 0x21] ∧
    ((0x00000103#32).toNat / 2 ^ 8 % 2 = 1 ∧ (0x00000103#32).toNat % 256 ∉ [0x20, 0x21]) ∧
    ((0x00000220#32).toNat / 2 ^ 9 % 2 = 1 ∧ (0x00000220#32).toNat % 256 ≠ 0x21) ∧
    ([0x00000400#32, 0x00000004#32, 0x00000103#32, 0x00000220#32].all fun w =>
      opcodeMap.all fun row => decide (w &&& row.mask ≠ row.pattern)) = true ∧
    (opcodeMap.any fun row => decide (0x00000120#32 &&& row.mask = row.pattern)) = true := by decide

theorem witness_CommandWordLegalExactlyByOpcodeMap :
    ⟨0x00000021#32, 0xFFFFFCFF#32, fun w => .pixBuf (freeOrd w) (freeIfmt w)⟩ ∈ opcodeMap ∧
    0x00000321#32 &&& 0xFFFFFCFF#32 = 0x00000021#32 ∧ decodeCommand 0x00000321#32 = .ok (.pixBuf .bgr565 .rgba8888) :=
  ⟨by simp [opcodeMap], by decide, by decide⟩

theorem witness_DecodedWordsReencode :
    (∃ w i, decodeCommand w = .ok i) ∧ (∃ req wdata i, req.getLsbD 22 = true ∧ decodeRequest req wdata = .ok i) ∧
    (∃ req wdata i, req.getLsbD 22 = false ∧ decodeRequest req wdata = .ok i) :=
  ⟨⟨0x321#32, .pixBuf .bgr565 .rgba8888, by decide⟩,
   ⟨0x00700000#32, 9#32, .busWrite .reserved 0#20 9#32, by decide⟩,
   ⟨0x000FFFFF#32, 9#32, .busRead .byte 0xFFFFF#20, by decide⟩⟩

theorem witness_StepRunsDecodedInstruction :
    nopNext.pending = .bus 0x00600000#32 0#32 :: [] ∧
    decodeRequest 0x00600000#32 0#32 = .ok (.busWrite .word 0#20 0#32) := by decide

theorem witness_CmdWriteStoresThenRunsOneCommand :
    (nopNext.pending = .bus 0x00600000#32 0#32 :: [] ∧
      (opcodeMap.any fun row => decide (0#32 &&& row.mask = row.pattern)) = true) ∧
    (State.reset.withPending [.bus 0x00600000#32 4#32]).pending = .bus 0x00600000#32 4#32 :: [] ∧
    (∀ row ∈ opcodeMap, 4#32 &&& row.mask ≠ row.pattern) ∧
    [AccessSize.byte, .half, .reserved].all (fun z => decide (z ≠ .word)) = true := by decide

theorem witness_StepConsumesOneEventInOrder :
    ∀ e : HostEvent, ∃ s : State, s.pending = e :: [] := fun e => ⟨State.reset.withPending [e], rfl⟩

theorem witness_IdleBlockKeepsItsState : State.reset.pending = [] := rfl

/-- One transaction for each condition of 60_exceptions.md R131 at a boundary of its range. -/
theorem witness_BusErrorExactlyWhenRefused_refused :
    [0x00800008#32, 0x00300008#32, 0x00200002#32, 0x001000FE#32, 0x002000FC#32, 0x00200100#32, 0x00270000#32,
      0x00210400#32, 0x00600004#32, 0x00420000#32].Forall
      fun req => busRefused Config.thisHardware req := by
  refine ⟨.inl (by decide), .inr (.inl (by decide)), .inr (.inr (.inl (by decide))),
    .inr (.inr (.inr (.inl (by decide)))), .inr (.inr (.inr (.inr (.inl ⟨by decide, ?_⟩)))),
    .inr (.inr (.inr (.inr (.inr (.inl ⟨by decide, ?_⟩))))),
    .inr (.inr (.inr (.inr (.inr (.inl ⟨by decide, ?_⟩))))),
    .inr (.inr (.inr (.inr (.inr (.inr (.inl ⟨.payload, by decide, by decide⟩)))))),
    .inr (.inr (.inr (.inr (.inr (.inr (.inr ⟨by decide, .inl ⟨.status, by decide⟩⟩)))))),
    .inr (.inr (.inr (.inr (.inr (.inr (.inr ⟨by decide, .inr ⟨.tx, by decide, by decide⟩⟩))))))⟩
  · intro r; cases r <;> decide
  · intro b; cases b <;> decide
  · intro b; cases b <;> decide

/-- Accepted transactions at the edges: the last register, the last byte of PAYLOAD, the last word of RX. -/
theorem witness_BusErrorExactlyWhenRefused_accepted :
    [0x00200050#32, 0x000103FF#32, 0x00230404#32].Forall fun req => ¬ busRefused Config.thisHardware req := by
  refine ⟨?_, ?_, ?_⟩ <;> rintro (h | h | h | h | ⟨h, h'⟩ | ⟨h, h'⟩ | ⟨b, h, h'⟩ | ⟨h, h'⟩)
  all_goals first
    | exact absurd h (by decide)
    | exact h' .pixinCount (by decide)
    | exact h' .payload (by decide)
    | exact h' .rx (by decide)
    | (revert h h'; cases b <;> decide)

theorem witness_ReadOnlyRegistersChangeOnlyByCommandOrReset :
    (∃ t, step ((start [(.crc, 7)] .rx []).withPending [.bus 0x0060000C#32 9#32]) = .next t ∧
      RegName.crc ∈ [RegName.status, .crc, .frmCrc, .txCount, .rxCmd, .rxAddr, .rxLen, .rxPlen, .rxCrc, .rxCrcCalc,
        .rxInfo, .pix565]) ∧ (0x0060000C#32 ≠ 0x00600000#32) := ⟨⟨_, rfl, by decide⟩, by decide⟩

theorem witness_ResetZeroesEveryRegister :
    ((start [(.crc, 7)] .rx [0xA5]).withPending [.reset, .reset]).pending = .reset :: [.reset] := rfl

theorem witness_ResetForgetsBuffers :
    ∃ s s' : State, s.pending = .reset :: [] ∧ s'.pending = .reset :: [] ∧ s'.epoch = s.epoch ∧
      s'.params = s.params ∧ s'.bufs ≠ s.bufs :=
  ⟨(start [] .rx [0xA5]).withPending [.reset], (start [(.crc, 7)] .rx [0x5A]).withPending [.reset],
    rfl, rfl, rfl, rfl, by decide⟩

theorem witness_AbandonedTransactionLeavesTheResetState :
    (State.reset.withPending [.resetDuring 0x00600000#32 3#32]).pending = .resetDuring 0x00600000#32 3#32 :: [] :=
  rfl

/-- A sound state in which something has happened: a frame in TX, a truncated frame parsed, an error code. -/
def soundState : State :=
  (start [(.status, 4), (.crc, 0xCD59), (.txCount, 1032), (.rxLen, 2), (.rxPlen, 1), (.rxInfo, 1)] .tx
    ackFrame).withPending [.bus 0x00600000#32 3#32]

theorem witness_EveryStepKeepsTheStateSound : soundState.Inv ∧ ∃ t, step soundState = .next t := by
  refine ⟨⟨by decide, fun r => by cases r <;> decide, by unfold State.errLegal; decide, fun b => ?_, .inr (by decide),
    by unfold State.parseResultsAgree; decide⟩, _, rfl⟩
  cases b <;> decide

/-- The hypothesis of the statements over all commands. -/
theorem witness_commands : [Instr.nop, .crcClear, .crcByte, .crcBuf, .frmBuild, .frmParse, .pixConv .rgb565,
    .pixConv .bgr565, .pixBuf .rgb565 .rgb888, .pixBuf .bgr565 .rgba8888].all Instr.isCommand = true := by decide

/-- Bytes just inside and just outside what FRM_BUILD and PIX_BUF store. -/
theorem witness_CommandsWriteOnlyTheirWriteSets :
    let s := start [(.frmLen, 6)] .rx []
    Instr.frmBuild.isCommand = true ∧ ¬ s.commandStores .frmBuild .tx 14 ∧ s.commandStores .frmBuild .tx 13 ∧
      ¬ s.commandStores (.pixBuf .rgb565 .rgb888) .pixout 4 ∧ s.commandStores (.pixBuf .rgb565 .rgb888) .pixout 3 ∧
      ¬ s.commandStores .frmParse .rx 0 := by
  unfold State.commandStores; decide

theorem witness_FailedCommandChangesOnlyStatus :
    after (exec .crcBuf (start [(.crcLen, 1025)] .rx [])) (fun t => decide (t.err ≠ 0#4)) = true := by decide

/-- The lengths and counts next to each limit of 60_exceptions.md R125, and one illegal word. -/
theorem witness_ErrorCodesHaveTheirCauses :
    (∀ row ∈ opcodeMap, 0x00000004#32 &&& row.mask ≠ row.pattern) ∧
    [(1024, 0#4), (1025, 2#4)].all (fun x =>
      after (exec .frmBuild (start [(.frmLen, BitVec.ofNat 32 x.1)] .payload (List.replicate 1024 0)))
        (fun t => decide (t.err = x.2))) = true ∧
    [(1033, 2#4), (1032, 0#4), (6, 0#4), (5, 3#4)].all (fun x =>
      after (exec .frmParse (start [(.rxCount, BitVec.ofNat 32 x.1)] .rx ackFrame))
        (fun t => decide (t.err = x.2))) = true := by
  refine ⟨by decide, by decide +kernel, by decide +kernel⟩

theorem witness_CommandsDependOnlyOnTheirOperands :
    Instr.frmParse.isCommand = true ∧ RegName.rxInfo ∉ Instr.frmParse.operandRegs ∧
    RegName.rxInfo ∈ Instr.frmParse.resultRegs ∧
    after (exec .frmParse (start [(.rxCount, 9)] .rx ackFrame)) (fun t => decide (t.err = 0#4)) = true ∧
    after (exec .frmParse (start [(.rxCount, 5)] .rx ackFrame)) (fun t => decide (t.err ≠ 0#4)) = true ∧
    RegName.crc ∉ Instr.frmParse.operandRegs ∧ RegName.crc ∉ Instr.frmParse.resultRegs ∧
    RegName.crc ≠ RegName.status := by
  refine ⟨by decide, by decide, by decide, by decide +kernel, by decide, by decide, by decide, by decide⟩

/-- Two states that agree on what FRM_BUILD reads and on nothing else: other registers and other bytes of TX; and an
illegal word. -/
theorem witness_CommandsDependOnlyOnTheirOperands_snapshot :
    let s := start [(.frmLen, 6)] .payload program
    let s' := (s.setReg .txCount 5#32).storeBytes .tx 0 [0xFF#8]
    s' ≠ s ∧ s'.params = s.params ∧ (∀ r ∈ Instr.frmBuild.operandRegs, s'.reg r = s.reg r) ∧
      (∀ b ∈ Instr.frmBuild.inputBuffers, ∀ k, s'.byteAt b k = s.byteAt b k) ∧
      after (exec .frmBuild s) (fun t => decide (t.err = 0#4)) = true ∧ s.commandStores .frmBuild .tx 0 ∧
      ∀ row ∈ opcodeMap, 0x00000004#32 &&& row.mask ≠ row.pattern := by
  refine ⟨by decide, rfl, by decide, fun b hb k => ?_, by decide +kernel, by unfold State.commandStores; decide,
    by decide⟩
  obtain rfl := List.mem_singleton.1 hb
  exact State.byteAt_storeBytes_outside _ _ _ _ (.inl (by decide))

theorem witness_RepeatedCommands :
    (Instr.frmParse.isCommand = true ∧ Instr.frmParse ≠ .crcByte ∧ Instr.frmParse ≠ .crcBuf) ∧
    (start [(.crcLen, 1024)] .rx []).crcLenCount ≤ (start [(.crcLen, 1024)] .rx []).params.maxPayload ∧
    decodeCommand 0x00000102#32 = .error .illegalCommandWord := by decide

theorem witness_CrcBufFeedsThePayload :
    (1024 = ((start [(.crcLen, 0x10400)] .rx []).reg .crcLen).toNat % 2 ^ 16 ∧
      1024 ≤ (start [(.crcLen, 0x10400)] .rx []).params.maxPayload) ∧
    (1025 = ((start [(.crcLen, 1025)] .rx []).reg .crcLen).toNat % 2 ^ 16 ∧
      (start [(.crcLen, 1025)] .rx []).params.maxPayload < 1025) := by decide

/-- "PROGRAM" fed after CRC_CLEAR: its first byte by CRC_BYTE, the other six by CRC_BUF. -/
theorem witness_CrcIsIncremental :
    ∃ s u t : State, exec .crcClear s = .next u ∧ CrcFeed u program t := by
  let s := start [(.crc, 0xCD59), (.crcDin, 0x50), (.crcLen, 6)] .payload [0x52, 0x4F, 0x47, 0x52, 0x41, 0x4D]
  let u := runCrcClear s
  let v := runCrcByte u
  let t := runCrcBuf v
  exact ⟨s, u, t, rfl, CrcFeed.byte u u v t [0x52, 0x4F, 0x47, 0x52, 0x41, 0x4D] rfl rfl
    (CrcFeed.buf v v t t [] rfl (by decide) rfl (CrcFeed.done t t rfl))⟩

theorem witness_CrcIsLinear : program.length = [0x12#8, 0x34, 0x56, 0x78, 0x9A, 0xBC, 0xDE].length := rfl

/-- For FrmBuildWritesTheFrame, BuiltFrameInvariants and CrcResidueIsZero: the empty payload and the longest one; for
the refusal of FrmBuildWritesTheFrame: one byte more. -/
theorem witness_FrmBuild :
    (0 = ((start [] .rx []).reg .frmLen).toNat % 2 ^ 16 ∧ 0 ≤ (start [] .rx []).params.maxPayload) ∧
    (1024 = ((start [(.frmLen, 1024)] .rx []).reg .frmLen).toNat % 2 ^ 16 ∧
      1024 ≤ (start [(.frmLen, 1024)] .rx []).params.maxPayload) ∧
    (start [(.frmLen, 1025)] .rx []).params.maxPayload <
      ((start [(.frmLen, 1025)] .rx []).reg .frmLen).toNat % 2 ^ 16 := by decide

/-- The received bytes of V-FP-7 (95_test_vectors.md): declared length 2. -/
def shortFrame : List Byte := [0xA5, 0x57, 0x00, 0x05, 0x00, 0x02, 0x11, 0x22, 0x8A, 0x86]

/-- For FrmParseReportsTheFrame, TruncatedFramesParse and MalformedExactlyWhenShortOrUnmarked: a legal count and the
marker, at every edge of a frame of 2 payload bytes: the header alone (6),
a truncated payload (7), a payload without its CRC (8, 9), a complete frame (10), the full RX (1032). -/
theorem witness_FrmParseReportsTheFrame :
    [6, 7, 8, 9, 10, 1032].all (fun m =>
      let s := start [(.rxCount, BitVec.ofNat 32 m)] .rx shortFrame
      decide (m = (s.reg .rxCount).toNat % 2 ^ 17 ∧ m ≤ s.params.maxPayload + 8 ∧ 6 ≤ m ∧
        s.byteAt .rx 0 = 0xA5#8 ∧ 2 = (s.byteAt .rx 4).toNat * 256 + (s.byteAt .rx 5).toNat)) = true := by
  decide +kernel

/-- The refusals of FrmParseReportsTheFrame: too many bytes, too few, and a wrong marker. -/
theorem witness_FrmParseReportsTheFrame_errors :
    (let s := start [(.rxCount, 1033)] .rx ackFrame
     s.params.maxPayload + 8 < (s.reg .rxCount).toNat % 2 ^ 17) ∧
    (let s := start [(.rxCount, 5)] .rx ackFrame
     (s.reg .rxCount).toNat % 2 ^ 17 < 6) ∧
    (let s := start [(.rxCount, 6)] .rx [0x5A]
     ¬ (s.reg .rxCount).toNat % 2 ^ 17 < 6 ∧ s.byteAt .rx 0 ≠ 0xA5#8) := by decide

/-- Two states with the same registers whose RX differs from byte 10 on. -/
theorem witness_TrailingBytesAreIgnored :
    let s := start [(.rxCount, 10)] .rx shortFrame
    let s' := (start [(.rxCount, 12)] .rx shortFrame).storeBytes .rx 10 [0xA5, 0xEE]
    2 = (s.byteAt .rx 4).toNat * 256 + (s.byteAt .rx 5).toNat ∧ s'.params = s.params ∧
    (∀ j, j < 8 + 2 → s'.byteAt .rx j = s.byteAt .rx j) ∧ 8 + 2 ≤ (s.reg .rxCount).toNat ∧
    8 + 2 ≤ (s'.reg .rxCount).toNat ∧ s.byteAt .rx 0 = 0xA5#8 ∧ s'.byteAt .rx 11 = 0xEE := by
  refine ⟨by decide, rfl, fun j hj => ?_, by decide, by decide, by decide, by decide⟩
  exact State.byteAt_storeBytes_outside _ _ _ _ (.inr (.inl hj))

theorem witness_ParseReadsOnlyReceivedBytes :
    let s := start [(.rxCount, 7)] .rx shortFrame
    let s' := s.storeBytes .rx 7 [0x33]
    s'.regs = s.regs ∧ s'.params = s.params ∧ s'.byteAt .rx 7 ≠ s.byteAt .rx 7 ∧
    ∀ j, j < (s.reg .rxCount).toNat % 2 ^ 17 → s'.byteAt .rx j = s.byteAt .rx j := by
  refine ⟨rfl, rfl, by decide, fun j hj => ?_⟩
  exact State.byteAt_storeBytes_outside _ _ _ _ (.inr (.inl hj))

/-- Two states whose RX differs in the CRC bytes of a frame with 2 payload bytes. -/
theorem witness_ReceivedCrcIsNeverValidated :
    let s := start [(.rxCount, 10)] .rx shortFrame
    let s' := s.storeBytes .rx 8 [0x00, 0x00]
    2 = (s.byteAt .rx 4).toNat * 256 + (s.byteAt .rx 5).toNat ∧ s'.regs = s.regs ∧ s'.params = s.params ∧
    s'.byteAt .rx 8 ≠ s.byteAt .rx 8 ∧
    ∀ j, j ≠ 6 + 2 → j ≠ 7 + 2 → s'.byteAt .rx j = s.byteAt .rx j := by
  refine ⟨by decide, rfl, rfl, by decide, fun j h1 h2 => ?_⟩
  refine State.byteAt_storeBytes_outside _ _ _ _ (.inr ?_)
  simp only [List.length_cons, List.length_nil]
  omega

/-- V-FB-6 and V-FP-1 (95_test_vectors.md): the frame of a data-ack, copied from TX to RX. -/
theorem witness_BuildThenParseRoundTrip :
    let s := start [(.frmCmd, 0xEE), (.frmLen, 1)] .payload [0x59]
    let u := start [(.rxCount, 9)] .rx ackFrame
    ∃ t, 1 = (s.reg .frmLen).toNat % 2 ^ 16 ∧ 1 ≤ s.params.maxPayload ∧ exec .frmBuild s = .next t ∧
      u.params = s.params ∧ u.reg .rxCount = t.reg .txCount ∧
      ∀ j, j < 1 + 8 → u.byteAt .rx j = t.byteAt .tx j := by
  refine ⟨_, by decide, by decide, rfl, rfl, by decide +kernel, ?_⟩
  decide +kernel

theorem witness_CrcUnitIsSeparateFromTheFrameCodec :
    RegName.frmCrc ∈ [RegName.frmCmd, .frmAddr, .frmLen, .frmCrc, .txCount, .rxCount, .rxCmd, .rxAddr, .rxLen,
      .rxPlen, .rxCrc, .rxCrcCalc, .rxInfo] := by decide

theorem witness_PixConvConvertsOnePixel :
    let s := start [(.pixRgb, 0xFF123456)] .rx []
    0x12 = (s.reg .pixRgb).toNat / 2 ^ 16 % 2 ^ 8 ∧ 0x34 = (s.reg .pixRgb).toNat / 2 ^ 8 % 2 ^ 8 ∧
    0x56 = (s.reg .pixRgb).toNat % 2 ^ 8 := by decide

/-- For PixBufConvertsEveryPixel: exact counts in both formats; for its refusal: one byte short and one too many. -/
theorem witness_PixBuf :
    ((start [(.pixinCount, 6)] .pixin pixels).reg .pixinCount).toNat % 2 ^ 18 =
      (start [] .pixin pixels).params.pixels * 3 ∧
    ((start [(.pixinCount, 8)] .pixin pixels).reg .pixinCount).toNat % 2 ^ 18 =
      (start [] .pixin pixels).params.pixels * 4 ∧
    ((start [(.pixinCount, 7)] .pixin pixels).reg .pixinCount).toNat % 2 ^ 18 ≠
      (start [] .pixin pixels).params.pixels * 4 ∧
    ((start [(.pixinCount, 9)] .pixin pixels).reg .pixinCount).toNat % 2 ^ 18 ≠
      (start [] .pixin pixels).params.pixels * 4 := by decide

/-- The last lane, RGBA8888. -/
theorem witness_PixBufLanesArePixConv :
    let s := start [(.pixinCount, 8)] .pixin pixels
    let u := start [(.pixRgb, 0x123456)] .rx []
    1 < s.params.pixels ∧ (s.reg .pixinCount).toNat % 2 ^ 18 = s.params.pixels * 4 ∧
    (u.reg .pixRgb).toNat % 2 ^ 24 =
      (s.byteAt .pixin (4 * 1)).toNat * 2 ^ 16 + (s.byteAt .pixin (4 * 1 + 1)).toNat * 2 ^ 8 +
        (s.byteAt .pixin (4 * 1 + 2)).toNat := by decide +kernel

theorem witness_AlphaIsNeverRead :
    let s := start [(.pixinCount, 8)] .pixin pixels
    let s' := s.storeBytes .pixin 7 [0x77]
    s'.regs = s.regs ∧ s'.params = s.params ∧ (s.reg .pixinCount).toNat % 2 ^ 18 = s.params.pixels * 4 ∧
    s'.byteAt .pixin 7 ≠ s.byteAt .pixin 7 ∧ ∀ j, j % 4 ≠ 3 → s'.byteAt .pixin j = s.byteAt .pixin j := by
  refine ⟨rfl, rfl, by decide, by decide +kernel, fun j hj => ?_⟩
  refine State.byteAt_storeBytes_outside _ _ _ _ (.inr ?_)
  simp only [List.length_cons, List.length_nil]
  omega

theorem witness_BusRegisterAccess :
    RegName.pixinCount ∈ [RegName.crcDin, .crcLen, .frmCmd, .frmAddr, .frmLen, .rxCount, .pixRgb, .pixinCount] ∧
    decodeCommand 0x00000021#32 = .ok (.pixBuf .rgb565 .rgb888) ∧
    decodeCommand 0x00000022#32 = .error .illegalCommandWord := by decide

/-- For WindowAccessIsLittleEndian: the last word of RX and the last byte of PIXIN. -/
theorem witness_WindowAccess :
    paramsLegal State.reset.params ∧
    ((windowBase .rx + 1028) % 2 ^ 2 = 0 ∧ 1028 + 2 ^ 2 ≤ capacity State.reset.params .rx) ∧
    ((windowBase .pixin + 81919) % 2 ^ 0 = 0 ∧ 81919 + 2 ^ 0 ≤ capacity State.reset.params .pixin) := by decide

/-- A word written to PAYLOAD and the half above it read back, at the end of the buffer. -/
theorem witness_MixedWidthsReadBack :
    paramsLegal State.reset.params ∧ (windowBase .payload + 1020) % 2 ^ 2 = 0 ∧
    1020 + 2 ^ 2 ≤ capacity State.reset.params .payload ∧ (windowBase .payload + 1022) % 2 ^ 1 = 0 ∧
    1022 + 2 ^ 1 ≤ capacity State.reset.params .payload := by decide

/-- For BusWriteFrame and ReadsHaveNoEffectAndWritesRepeat: writes that are not to CMD, one for each thing an offset
can name. -/
theorem witness_BusWriteFrame :
    0x70000#20 ≠ 0x00000#20 ∧ 0x0000C#20 ≠ 0x00000#20 ∧ 0x103FF#20 ≠ 0x00000#20 ∧
    busTarget Config.thisHardware .word (0x70000#20).toNat = none ∧
    busTarget Config.thisHardware .word (0x0000C#20).toNat = some (.register .crcDin) ∧
    busTarget Config.thisHardware .byte (0x103FF#20).toNat = some (.window .payload 1023) := by decide

theorem witness_BufferWriters :
    (∃ t, step nopNext = .next t) ∧
    (∃ t, step (State.reset.withPending [.bus 0x00430000#32 0xA5#32]) = .next t) ∧
    (0x00430000#32 ≠ 0x00600000#32) := ⟨⟨_, rfl⟩, ⟨_, rfl⟩, by decide⟩

theorem witness_CommandsRightAfterReset :
    paramsLegal State.reset.params ∧ ∀ r : RegName, State.reset.reg r = 0#32 :=
  ⟨by decide, fun r => by cases r <;> rfl⟩

end Sys2Proof.Tests
end

section
/-! PROOF. Every step keeps the state sound (O17). A sound state constrains a few registers, the buffers and the
parameters, so there is one rule for each operation that can reach them: a register write, the write of STATUS, a
store, a successful parse, reset. Each command and each transaction is a composition of these. -/

namespace Sys2Proof.Machine

/-! ### The field of a register is its low bits -/

/-- The number of field bits of a register (10_state.md R21): its field always starts at bit 0. -/
def RegName.fieldWidth : RegName → Nat
  | .cmd => 32
  | .status => 4
  | .rxInfo => 3
  | .crcDin | .frmCmd | .rxCmd => 8
  | .crc | .crcLen | .frmAddr | .frmLen | .frmCrc | .rxAddr | .rxLen | .rxPlen | .rxCrc | .rxCrcCalc | .pix565 => 16
  | .txCount | .rxCount => 17
  | .pixinCount => 18
  | .pixRgb => 24

theorem toNat_fieldMask (r : RegName) : r.fieldMask.toNat = 2 ^ r.fieldWidth - 1 := by
  cases r <;> rfl

/-- A word keeps the reserved bits of a register 0 when it fits the register's field. -/
theorem and_fieldMask_eq_self {r : RegName} {v : Word} (h : v.toNat < 2 ^ r.fieldWidth) :
    v &&& r.fieldMask = v := by
  apply BitVec.eq_of_toNat_eq
  rw [BitVec.toNat_and, toNat_fieldMask, Nat.and_two_pow_sub_one_eq_mod, Nat.mod_eq_of_lt h]

theorem setWidth_and_fieldMask {w : Nat} {r : RegName} (x : BitVec w) (h : w ≤ r.fieldWidth) :
    x.setWidth 32 &&& r.fieldMask = x.setWidth 32 := by
  apply and_fieldMask_eq_self
  calc (x.setWidth 32).toNat ≤ x.toNat := by rw [BitVec.toNat_setWidth]; exact Nat.mod_le _ _
    _ < 2 ^ w := x.isLt
    _ ≤ 2 ^ r.fieldWidth := Nat.pow_le_pow_right (by decide) h

/-! ### What soundness looks at -/

/-- The registers that hold the results of a parse and that soundness relates (10_state.md R37 to R41). -/
def parseRegs : List RegName := [.rxLen, .rxPlen, .rxCrc, .rxCrcCalc, .rxInfo]

/-- The registers that soundness constrains beyond their reserved bits. -/
def constrainedRegs : List RegName := .status :: .txCount :: parseRegs

theorem not_mem_constrainedRegs_of_writable {r : RegName} (h : r.readOnly = false) : r ∉ constrainedRegs := by
  revert h; cases r <;> decide

section
variable {s t : State} {r : RegName} {v : Word}

theorem State.parseResultsAgree.congr (h : s.parseResultsAgree) (hr : ∀ r ∈ parseRegs, t.reg r = s.reg r) :
    t.parseResultsAgree := by
  simp only [parseRegs, List.forall_mem_cons] at hr
  obtain ⟨hlen, hplen, hcrc, hcalc, hinfo, -⟩ := hr
  simpa only [State.parseResultsAgree, State.infoTrunc, State.infoCrcPresent, State.infoCrcMatch, hlen, hplen,
    hcrc, hcalc, hinfo] using h

theorem State.reservedZero.setReg (h : s.reservedZero) (hv : v &&& r.fieldMask = v) :
    (s.setReg r v).reservedZero := by
  intro r'
  rw [State.reg_setReg]
  split
  case isTrue e => rw [e, hv]
  case isFalse => exact h r'

/-! ### One rule per operation -/

/-- Writing a value of its field to a register that soundness does not constrain further. -/
theorem State.Inv.setReg (h : s.Inv) (hr : r ∉ constrainedRegs) (hv : v &&& r.fieldMask = v) :
    (s.setReg r v).Inv := by
  have same : ∀ r' ∈ constrainedRegs, (s.setReg r v).reg r' = s.reg r' := fun r' h' =>
    State.reg_setReg_ne _ _ _ (ne_of_mem_of_not_mem h' hr)
  exact {
    params := h.params
    reserved := h.reserved.setReg hv
    err := by rw [State.errLegal, State.err, same .status (by decide)]; exact h.err
    buffers := h.buffers
    txCount := by rw [State.txCountLegal, same .txCount (by decide)]; exact h.txCount
    parse := h.parse.congr fun r' h' => same r' (.tail _ (.tail _ h')) }

theorem State.Inv.setTxCount (h : s.Inv) (h8 : 8 ≤ v.toNat) (hc : v.toNat ≤ capacity s.params .tx) :
    (s.setReg .txCount v).Inv where
  params := h.params
  reserved := by
    have hmax : v.toNat < 2 ^ 17 := by
      have := h.params.2.1
      simp only [capacity] at hc
      omega
    exact h.reserved.setReg (and_fieldMask_eq_self hmax)
  err := h.err
  buffers := h.buffers
  txCount := .inr (by rw [State.reg_setReg_same]; exact ⟨h8, hc⟩)
  parse := h.parse.congr fun _ h' => State.reg_setReg_ne _ _ _ (ne_of_mem_of_not_mem h' (by decide))

/-- Both ways a command ends write the STATUS word of a code (40_command.md R86, 60_exceptions.md R126). -/
theorem State.Inv.raiseError (h : s.Inv) (e : ErrorCode) : (raiseError e s).Inv where
  params := h.params
  reserved := h.reserved.setReg (setWidth_and_fieldMask e.number (by decide))
  err := by
    rw [State.errLegal, State.err, reg_raiseError, if_pos rfl]
    cases e <;> decide
  buffers := h.buffers
  txCount := h.txCount
  parse := h.parse.congr fun _ h' => State.reg_setReg_ne _ _ _ (ne_of_mem_of_not_mem h' (by decide))

theorem State.Inv.succeed (h : s.Inv) : (succeed s).Inv := h.raiseError .ok

/-- A store that stays within its buffer (20_memory.md R57). -/
theorem State.Inv.storeBytes (h : s.Inv) {b : Buffer} {k : Nat} {bs : List Byte}
    (hk : k + bs.length ≤ capacity s.params b) : (s.storeBytes b k bs).Inv where
  params := h.params
  reserved := h.reserved
  err := h.err
  buffers := by
    intro b'
    rw [State.storeBytes, Buffers.get_set]
    split
    case isTrue e =>
      subst e
      obtain ⟨hwf, hbelow⟩ := h.buffers b'
      exact ⟨Memory.store_wf hwf k bs, Memory.store_below hbelow hk⟩
    case isFalse => exact h.buffers b'
  txCount := h.txCount
  parse := h.parse

theorem State.Inv.respond (h : s.Inv) (a : Response) : (s.respond a).Inv :=
  ⟨h.params, h.reserved, h.err, h.buffers, h.txCount, h.parse⟩

theorem State.Inv.withPending (h : s.Inv) (l : List HostEvent) : (s.withPending l).Inv :=
  ⟨h.params, h.reserved, h.err, h.buffers, h.txCount, h.parse⟩

theorem State.Inv.applyReset (h : s.Inv) : (applyReset s).Inv where
  params := h.params
  reserved r := by simp
  err := by simp [State.errLegal, State.err]
  buffers b := by simp [Memory.wf, Memory.below]
  txCount := .inl (by simp)
  parse := by simp [State.parseResultsAgree, State.infoTrunc, State.infoCrcPresent, State.infoCrcMatch]

/-! ### A successful parse -/

theorem rxInfoWord_bits (trunc present matched : Bool) :
    (rxInfoWord trunc present matched).getLsbD 0 = trunc ∧
    (rxInfoWord trunc present matched).getLsbD 1 = present ∧
    (rxInfoWord trunc present matched).getLsbD 2 = matched := by
  revert trunc present matched; decide

theorem rxInfoWord_lt (trunc present matched : Bool) : (rxInfoWord trunc present matched).toNat < 2 ^ 3 := by
  revert trunc present matched; decide

theorem setWidth_half_inj {x y : Half} : x.setWidth 32 = y.setWidth 32 ↔ x = y := by
  constructor
  · intro h
    simpa using congrArg (BitVec.setWidth 16) h
  · rintro rfl; rfl

/-- The payload bytes present are at most those declared (42_frame.md R107). -/
theorem parsePlen_le (s : State) : s.parsePlen ≤ s.declaredLen.toNat := by
  unfold State.parsePlen
  split
  case isTrue h =>
    have : s.rxCountCount < 6 + s.declaredLen.toNat := of_decide_eq_true h
    omega
  case isFalse => exact le_rfl

theorem toNat_parsePlenWord (s : State) : (BitVec.ofNat 32 s.parsePlen).toNat = s.parsePlen := by
  have := parsePlen_le s
  have := s.declaredLen.isLt
  rw [BitVec.toNat_ofNat, Nat.mod_eq_of_lt (by omega)]

theorem State.reservedZero.writeParsed (h : s.reservedZero) : (writeParsed s).reservedZero := by
  have hplen : (BitVec.ofNat 32 s.parsePlen).toNat < 2 ^ 16 := by
    rw [toNat_parsePlenWord]
    exact (parsePlen_le s).trans_lt s.declaredLen.isLt
  intro r
  rw [reg_writeParsed]
  cases r
  case rxCmd => exact setWidth_and_fieldMask _ (by decide)
  case rxAddr => exact setWidth_and_fieldMask _ (by decide)
  case rxLen => exact setWidth_and_fieldMask _ (by decide)
  case rxPlen => exact and_fieldMask_eq_self hplen
  case rxCrc => exact setWidth_and_fieldMask _ (by decide)
  case rxCrcCalc => exact setWidth_and_fieldMask _ (by decide)
  case rxInfo => exact and_fieldMask_eq_self (rxInfoWord_lt _ _ _)
  all_goals exact h _

/-- A truncated frame cannot hold its CRC (42_frame.md R107, R108). -/
theorem parsePresent_of_trunc (h : s.parseTrunc = true) : s.parsePresent = false := by
  have : s.rxCountCount < 6 + s.declaredLen.toNat := of_decide_eq_true h
  exact decide_eq_false (by omega)

theorem parseMatch_iff (s : State) :
    s.parseMatch = true ↔ s.parsePresent = true ∧ s.parseRcrc = s.parseCalc := by
  simp [State.parseMatch, frameCrcMatch]

theorem parsePlen_of_trunc (h6 : 6 ≤ s.rxCountCount) (h : s.parseTrunc = true) :
    s.parsePlen < s.declaredLen.toNat := by
  have : s.rxCountCount < 6 + s.declaredLen.toNat := of_decide_eq_true h
  rw [State.parsePlen, if_pos h]
  omega

/-- The results of a parse agree with each other, whatever the buffer holds. -/
theorem parseResultsAgree_writeParsed (h6 : 6 ≤ s.rxCountCount) : (writeParsed s).parseResultsAgree := by
  obtain ⟨htrunc, hpresent, hmatch⟩ := rxInfoWord_bits s.parseTrunc s.parsePresent s.parseMatch
  simp only [State.parseResultsAgree, State.infoTrunc, State.infoCrcPresent, State.infoCrcMatch, reg_writeParsed,
    htrunc, hpresent, hmatch, toNat_parsePlenWord,
    BitVec.toNat_setWidth_of_le (show 16 ≤ 32 by decide), setWidth_half_inj]
  refine ⟨fun ht => ⟨parsePresent_of_trunc ht, ?_, ?_, parsePlen_of_trunc h6 ht⟩, fun ht => ?_, fun hp => ?_,
    parseMatch_iff s⟩
  · simp [State.parseMatch, frameCrcMatch, parsePresent_of_trunc ht]
  · simp [State.parseCalc, ht]
  · apply BitVec.eq_of_toNat_eq
    rw [toNat_parsePlenWord, BitVec.toNat_setWidth_of_le (by decide), State.parsePlen, if_neg (by simp [ht])]
  · simp [State.parseRcrc, hp]

theorem State.Inv.writeParsed (h : s.Inv) (h6 : 6 ≤ s.rxCountCount) : (writeParsed s).Inv where
  params := by rw [params_writeParsed]; exact h.params
  reserved := h.reserved.writeParsed
  err := by rw [State.errLegal, State.err, reg_writeParsed]; exact h.err
  buffers := by rw [State.buffersLegal, bufs_writeParsed, params_writeParsed]; exact h.buffers
  txCount := by rw [State.txCountLegal, reg_writeParsed, params_writeParsed]; exact h.txCount
  parse := parseResultsAgree_writeParsed h6

/-! ### The commands -/

theorem State.Inv.runCrcBuf (h : s.Inv) : (runCrcBuf s).Inv := by
  rcases runCrcBuf_cases s with ⟨-, e⟩ | ⟨-, e⟩ <;> rw [e]
  · exact h.raiseError _
  · exact (h.setReg (by decide) (setWidth_and_fieldMask _ (by decide))).succeed

theorem State.Inv.runFrmBuild (h : s.Inv) : (runFrmBuild s).Inv := by
  rcases runFrmBuild_cases s with ⟨-, e⟩ | ⟨hlen, e⟩ <;> rw [e]
  · exact h.raiseError _
  · have hmax := h.params.2.1
    have hcount : (BitVec.ofNat 32 (s.frmLenCount + 8)).toNat = s.frmLenCount + 8 := by
      rw [BitVec.toNat_ofNat, Nat.mod_eq_of_lt (by omega)]
    have hstore := h.storeBytes (b := .tx) (k := 0)
      (bs := frameBytes s.frmCmdByte s.frmAddrHalf s.framePayload) (by simp [capacity, hlen])
    have htx := hstore.setTxCount (v := BitVec.ofNat 32 (s.frmLenCount + 8)) (by omega)
      (by simp only [State.params_storeBytes, capacity]; omega)
    exact (htx.setReg (r := .frmCrc) (by decide) (setWidth_and_fieldMask (frameCrc _ _ _) (by decide))).succeed

theorem State.Inv.runFrmParse (h : s.Inv) : (runFrmParse s).Inv := by
  rcases runFrmParse_cases s with ⟨-, e⟩ | ⟨-, -, e⟩ | ⟨-, h6, -, e⟩ <;> rw [e]
  · exact h.raiseError _
  · exact h.raiseError _
  · exact (h.writeParsed h6).succeed

theorem State.Inv.runPixBuf (h : s.Inv) (ord : PixelOrder) (ifmt : InputFormat) : (runPixBuf ord ifmt s).Inv := by
  rcases runPixBuf_cases s ord ifmt with ⟨-, e⟩ | ⟨-, e⟩ <;> rw [e]
  · exact h.raiseError _
  · exact (h.storeBytes (by simp [capacity])).succeed

theorem exec_command_keeps_inv {i : Instr} (hi : i.isCommand = true) (h : s.Inv) (ht : exec i s = .next t) :
    t.Inv := by
  cases i <;> cases ht
  case nop => exact h.succeed
  case crcClear => exact (h.setReg (by decide) (by decide)).succeed
  case crcByte => exact (h.setReg (by decide) (setWidth_and_fieldMask _ (by decide))).succeed
  case crcBuf => exact h.runCrcBuf
  case frmBuild => exact h.runFrmBuild
  case frmParse => exact h.runFrmParse
  case pixConv ord => exact (h.setReg (by decide) (setWidth_and_fieldMask _ (by decide))).succeed
  case pixBuf ord ifmt => exact h.runPixBuf ord ifmt
  case busRead => cases hi
  case busWrite => cases hi

theorem State.Inv.executeCommand (h : s.Inv) (w : Word) : (executeCommand w s).Inv := by
  cases hd : decodeCommand w with
  | ok i =>
    have hi := isCommand_of_decode hd
    exact exec_command_keeps_inv hi h (executeCommand_of_decode s hd hi)
  | error e =>
    rw [executeCommand_of_error s hd]
    exact h.raiseError .illegalCmd

/-! ### The transactions -/

theorem State.Inv.runBusRead (h : s.Inv) (size : AccessSize) (off : Offset) : (runBusRead size off s).Inv := by
  cases ht : busTarget s.params size off.toNat with
  | none => rw [runBusRead_of_none s ht]; exact h.respond _
  | some target => rw [runBusRead_of_some s ht]; exact h.respond _

theorem State.Inv.runBusWrite (h : s.Inv) (size : AccessSize) (off : Offset) (w : Word) :
    (runBusWrite size off w s).Inv := by
  rcases runBusWrite_cases s size off w with
    ⟨-, e⟩ | ⟨-, -, -, e⟩ | ⟨-, -, -, e⟩ | ⟨r, -, hr, -, e⟩ | ⟨b, k, -, ht, e⟩ <;> rw [e] <;>
    apply State.Inv.respond
  · exact h
  · exact h
  · exact (h.setReg (r := .cmd) (by decide) (and_fieldMask_eq_self w.isLt)).executeCommand w
  · exact h.setReg (not_mem_constrainedRegs_of_writable hr) (by rw [BitVec.and_assoc, BitVec.and_self])
  · obtain ⟨-, -, -, -, hfits⟩ := busTarget_window.1 ht
    exact h.storeBytes (by rw [length_bytesOfWord]; exact hfits)

theorem exec_keeps_inv {i : Instr} (h : s.Inv) (ht : exec i s = .next t) : t.Inv := by
  by_cases hi : i.isCommand = true
  · exact exec_command_keeps_inv hi h ht
  cases i
  case busRead size off => cases ht; exact h.runBusRead size off
  case busWrite size off w => cases ht; exact h.runBusWrite size off w
  all_goals exact absurd rfl hi

/-! ### The step -/

/-- Everything a step can do: nothing, answer a request the decoder rejects, run a decoded transaction, reset,
reset during a transaction. -/
theorem step_cases (ht : step s = .next t) :
    (s.pending = [] ∧ t = s) ∨
    (∃ req wdata rest, s.pending = .bus req wdata :: rest ∧
      ((∃ e, decodeRequest req wdata = .error e ∧ t = busError (s.withPending rest)) ∨
       ∃ i, decodeRequest req wdata = .ok i ∧ exec i (s.withPending rest) = .next t)) ∨
    (∃ rest, s.pending = .reset :: rest ∧ t = applyReset (s.withPending rest)) ∨
    (∃ req wdata rest, s.pending = .resetDuring req wdata :: rest ∧
      t = abandonTransaction (s.withPending rest)) := by
  unfold step at ht
  split at ht
  case h_1 hp => cases ht; exact .inl ⟨hp, rfl⟩
  case h_2 req wdata rest hp =>
    refine .inr (.inl ⟨req, wdata, rest, hp, ?_⟩)
    split at ht
    case h_1 i hd => exact .inr ⟨i, hd, ht⟩
    case h_2 e hd => cases ht; exact .inl ⟨e, hd, rfl⟩
  case h_3 rest hp => cases ht; exact .inr (.inr (.inl ⟨rest, hp, rfl⟩))
  case h_4 req wdata rest hp => cases ht; exact .inr (.inr (.inr ⟨req, wdata, rest, hp, rfl⟩))

end

/-- Settles O17: a step is one composition of the operations above, each of which keeps soundness. -/
theorem everyStepKeepsTheStateSound : Obligations.EveryStepKeepsTheStateSound := by
  intro s t h ht
  rcases step_cases ht with ⟨-, rfl⟩ | ⟨-, -, rest, -, ⟨-, -, rfl⟩ | ⟨i, -, he⟩⟩ | ⟨rest, -, rfl⟩ |
    ⟨-, -, rest, -, rfl⟩
  · exact h
  · exact (h.withPending rest).respond _
  · exact exec_keeps_inv (h.withPending rest) he
  · exact (h.withPending rest).applyReset
  · exact (h.withPending rest).applyReset.respond _

end Sys2Proof.Machine
end

section
/-! PROOF. Who may change the read-only registers and the buffers (O10, O12, O52, O53). The host's transactions split
into the CMD write and the rest: one rule says everything the rest can do, and one says which bytes a command leaves
alone. The windows a command stores to are exactly those the host may only read, so each side keeps off the
other's. -/

namespace Sys2Proof.Machine

section
variable {s t : State} {req wdata : Word} {rest : List HostEvent} {r : RegName} {b : Buffer} {k : Nat}

/-! ### The step of a transaction -/

theorem step_of_decodeRequest_ok {i : Instr} (hp : s.pending = .bus req wdata :: rest)
    (hd : decodeRequest req wdata = .ok i) : step s = exec i (s.withPending rest) := by
  simp [step, hp, hd]

theorem step_of_decodeRequest_error {e : DecodeError} (hp : s.pending = .bus req wdata :: rest)
    (hd : decodeRequest req wdata = .error e) : step s = .next (busError (s.withPending rest)) := by
  simp [step, hp, hd]

theorem decodeRequest_cmdWriteRequest (w : Word) :
    decodeRequest cmdWriteRequest w = .ok (.busWrite .word 0x00000#20 w) := rfl

/-- The CMD write is the only request that decodes to a 4-byte write at offset 0x00 (30_encoding.md R70, R79). -/
theorem eq_cmdWriteRequest (hrsv : reqReserved req = 0#9) (hwe : reqWriteEnable req = 1#1)
    (hsize : AccessSize.ofBits (reqSize req) = .word) (hoff : reqOffset req = 0x00000#20) :
    req = cmdWriteRequest := by
  have hbits : reqSize req = 2#2 := by
    rw [← AccessSize.bits_ofBits (reqSize req), hsize]; rfl
  rw [← requestWord_fields hrsv, hwe, hbits, hoff]; rfl

/-- What the CMD write does (40_command.md R85). -/
theorem step_cmdWrite (hp : s.pending = .bus cmdWriteRequest wdata :: rest) :
    step s = .next
      ((executeCommand wdata ((s.withPending rest).setReg .cmd wdata)).respond ⟨0#32, .okay⟩) := by
  rw [step_of_decodeRequest_ok hp (decodeRequest_cmdWriteRequest wdata), exec_cmdWrite]

/-- Everything a transaction that is not the CMD write can do beside answering: nothing (a read, a refusal), write
a register other than CMD that is not read-only, store to a window that is not read-only (20_memory.md R49). -/
theorem step_transaction_cases (hp : s.pending = .bus req wdata :: rest) (hreq : req ≠ cmdWriteRequest)
    (ht : step s = .next t) :
    ∃ a, t = (s.withPending rest).respond a ∨
      (∃ r v, r ≠ .cmd ∧ r.readOnly = false ∧ t = ((s.withPending rest).setReg r v).respond a) ∨
      (∃ b k bs, windowReadOnly b = false ∧ t = ((s.withPending rest).storeBytes b k bs).respond a) := by
  rcases decodeRequest_cases req wdata with ⟨-, hd⟩ | ⟨-, -, hd⟩ | ⟨hrsv, hwe, hd⟩
  · rw [step_of_decodeRequest_error hp hd] at ht
    cases ht
    exact ⟨_, .inl rfl⟩
  · rw [step_of_decodeRequest_ok hp hd, exec_busRead] at ht
    cases ht
    cases h : busTarget (s.withPending rest).params (.ofBits (reqSize req)) (reqOffset req).toNat with
    | none => exact ⟨_, .inl (runBusRead_of_none _ h)⟩
    | some target => exact ⟨_, .inl (runBusRead_of_some _ h)⟩
  · rw [step_of_decodeRequest_ok hp hd, exec_busWrite] at ht
    cases ht
    rcases runBusWrite_cases (s.withPending rest) (.ofBits (reqSize req)) (reqOffset req) wdata with
      ⟨-, e⟩ | ⟨-, -, -, e⟩ | ⟨hsize, hoff, -, -⟩ | ⟨r, hcmd, hr, -, e⟩ | ⟨b, k, hb, -, e⟩
    · exact ⟨_, .inl e⟩
    · exact ⟨_, .inl e⟩
    · exact absurd (eq_cmdWriteRequest hrsv hwe hsize hoff) hreq
    · exact ⟨_, .inr (.inl ⟨r, _, hcmd, hr, e⟩)⟩
    · exact ⟨_, .inr (.inr ⟨b, k, _, hb, e⟩)⟩

/-! ### Read-only registers -/

/-- The registers whose access is RO in the register map (10_state.md R21, R23). -/
def readOnlyRegs : List RegName :=
  [.status, .crc, .frmCrc, .txCount, .rxCmd, .rxAddr, .rxLen, .rxPlen, .rxCrc, .rxCrcCalc, .rxInfo, .pix565]

theorem readOnly_iff_mem_readOnlyRegs : r.readOnly = true ↔ r ∈ readOnlyRegs := by
  cases r <;> decide

theorem reg_step_of_readOnly (hp : s.pending = .bus req wdata :: rest) (hreq : req ≠ cmdWriteRequest)
    (ht : step s = .next t) (hr : r.readOnly = true) : t.reg r = s.reg r := by
  obtain ⟨a, rfl | ⟨r', v, -, hr', rfl⟩ | ⟨b, k, bs, -, rfl⟩⟩ := step_transaction_cases hp hreq ht
  · rfl
  · have hne : r ≠ r' := by rintro rfl; simp [hr] at hr'
    rw [State.reg_respond, State.reg_setReg_ne _ _ _ hne, State.reg_withPending]
  · rfl

/-- At a register's offset a 4-byte access names the register and no other access is accepted
(20_memory.md R49, R54). -/
theorem busTarget_registerOffset (p : Config.Params) (size : AccessSize) (r : RegName) :
    busTarget p size r.offset = if size = .word then some (.register r) else none := by
  split
  case isTrue hsize => exact busTarget_register.2 ⟨hsize, rfl⟩
  case isFalse hsize =>
    cases h : busTarget p size r.offset with
    | none => rfl
    | some target =>
      cases target with
      | register r' => exact absurd (busTarget_register.1 h).1 hsize
      | window b k =>
        obtain ⟨-, -, ⟨hbase, -⟩, -⟩ := busTarget_window.1 h
        have := base_gt b
        have := offset_le r
        omega

theorem exec_busWrite_readOnlyRegister (s : State) (size : AccessSize) (w : Word) (hr : r.readOnly = true) :
    exec (.busWrite size (BitVec.ofNat 20 r.offset) w) s = .next (s.respond ⟨0#32, .buserr⟩) := by
  have htarget := busTarget_registerOffset s.params size r
  rw [← toNat_registerOffset] at htarget
  rw [exec_busWrite]
  by_cases hsize : size = .word
  · rw [if_pos hsize] at htarget
    rw [runBusWrite_of_readOnly s htarget hr]
  · rw [if_neg hsize] at htarget
    rw [runBusWrite_of_none s htarget]

/-! ### Buffer bytes -/

theorem byteAt_step_of_windowReadOnly (hp : s.pending = .bus req wdata :: rest) (hreq : req ≠ cmdWriteRequest)
    (ht : step s = .next t) (hb : windowReadOnly b = true) : t.byteAt b k = s.byteAt b k := by
  obtain ⟨a, rfl | ⟨r, v, -, -, rfl⟩ | ⟨b', k', bs, hb', rfl⟩⟩ := step_transaction_cases hp hreq ht
  · rfl
  · rfl
  · have hne : b ≠ b' := by rintro rfl; simp [hb] at hb'
    rw [State.byteAt_respond, State.byteAt_storeBytes_outside _ _ _ _ (.inl hne), State.byteAt_withPending]

/-- A command changes no buffer byte but those of its write set (40_command.md R84). -/
theorem byteAt_exec_of_not_commandStores {i : Instr} (hi : i.isCommand = true) (ht : exec i s = .next t)
    (hk : ¬ s.commandStores i b k) : t.byteAt b k = s.byteAt b k := by
  cases i <;> cases ht
  case nop => rfl
  case crcClear => rfl
  case crcByte => rfl
  case crcBuf => rcases runCrcBuf_cases s with ⟨-, e⟩ | ⟨-, e⟩ <;> rw [e] <;> rfl
  case frmBuild =>
    rcases runFrmBuild_cases s with ⟨-, e⟩ | ⟨-, e⟩ <;> rw [e]
    · rfl
    · apply State.byteAt_storeBytes_outside
      by_cases hb : b = .tx
      · subst hb
        have : s.frmLenCount + 8 ≤ k := Nat.le_of_not_lt hk
        simp [this]
      · exact .inl hb
  case frmParse =>
    rcases runFrmParse_cases s with ⟨-, e⟩ | ⟨-, -, e⟩ | ⟨-, -, -, e⟩ <;> rw [e]
    · rfl
    · rfl
    · rw [byteAt_succeed, byteAt_writeParsed]
  case pixConv => rfl
  case pixBuf ord ifmt =>
    rcases runPixBuf_cases s ord ifmt with ⟨-, e⟩ | ⟨-, e⟩ <;> rw [e]
    · rfl
    · apply State.byteAt_storeBytes_outside
      by_cases hb : b = .pixout
      · subst hb
        have : 2 * s.params.pixels ≤ k := Nat.le_of_not_lt hk
        simp [this]
      · exact .inl hb
  case busRead => cases hi
  case busWrite => cases hi

/-- Commands store only to the windows the host may only read (20_memory.md R57, 40_command.md R84). -/
theorem windowReadOnly_of_commandStores {i : Instr} (h : s.commandStores i b k) : windowReadOnly b = true := by
  unfold State.commandStores at h
  split at h
  · rfl
  · rfl
  · exact h.elim

theorem byteAt_executeCommand_of_writable (w : Word) (hb : windowReadOnly b = false) :
    (executeCommand w s).byteAt b k = s.byteAt b k := by
  cases hd : decodeCommand w with
  | ok i =>
    have hi := isCommand_of_decode hd
    refine byteAt_exec_of_not_commandStores hi (executeCommand_of_decode s hd hi) fun h => ?_
    simp [windowReadOnly_of_commandStores h] at hb
  | error e => rw [executeCommand_of_error s hd, State.byteAt_setReg]

theorem byteAt_cmdWrite_of_writable (hp : s.pending = .bus cmdWriteRequest wdata :: rest)
    (ht : step s = .next t) (hb : windowReadOnly b = false) : t.byteAt b k = s.byteAt b k := by
  rw [step_cmdWrite hp] at ht
  cases ht
  rw [State.byteAt_respond, byteAt_executeCommand_of_writable wdata hb, State.byteAt_setReg,
    State.byteAt_withPending]

end

/-- Settles O12: a transaction that is not the CMD write reaches only registers that are not read-only, and at a
read-only register's offset every write is refused, by its size or by the register's access. -/
theorem readOnlyRegistersChangeOnlyByCommandOrReset :
    Obligations.ReadOnlyRegistersChangeOnlyByCommandOrReset :=
  ⟨fun _ _ _ _ _ hp hreq ht _ hr => reg_step_of_readOnly hp hreq ht (readOnly_iff_mem_readOnlyRegs.2 hr),
    fun s _ size w hr => exec_busWrite_readOnlyRegister s size w (readOnly_iff_mem_readOnlyRegs.2 hr)⟩

/-- Settles O52: TX and PIXOUT are the windows the host may only read, and the only ones a command stores to. -/
theorem bufferWriters : Obligations.BufferWriters := by
  intro s t req wdata rest hp ht
  refine ⟨fun hreq k => ⟨?_, ?_⟩, ?_⟩
  · exact byteAt_step_of_windowReadOnly hp hreq ht rfl
  · exact byteAt_step_of_windowReadOnly hp hreq ht rfl
  · rintro rfl k
    exact ⟨byteAt_cmdWrite_of_writable hp ht rfl, byteAt_cmdWrite_of_writable hp ht rfl,
      byteAt_cmdWrite_of_writable hp ht rfl⟩

/-- Settles O10: with no event to take, the step answers the state it was given. -/
theorem idleBlockKeepsItsState : Obligations.IdleBlockKeepsItsState := by
  intro s hp
  unfold step
  rw [hp]

/-- Settles O53: the two tables, each evaluated row by row. -/
theorem addressMapOfTheSpec : Obligations.AddressMapOfTheSpec := by
  constructor
  · rfl
  · rfl

end Sys2Proof.Machine
end

section
/-! PROOF. What a bus transaction does (O9, O47, O48, O49, O50, O51). Every transaction is one effect on the block and
then one answer, and the effect leaves the model's own fields alone. Where the request names a register or bytes of a
window, one rule gives the effect exactly: a register's field, or the bytes of the bus lanes, lowest lane first. -/

namespace Sys2Proof.Machine

section
variable {s t : State} {req wdata : Word} {rest : List HostEvent} {r : RegName} {b : Buffer} {k : Nat}
  {size : AccessSize} {off : Offset} {w : Word}

/-! ### The model's own fields -/

theorem sameWorld.refl (s : State) : sameWorld s s := ⟨rfl, rfl, rfl, rfl⟩

theorem sameWorld.trans {u : State} (h : sameWorld s t) (h' : sameWorld t u) : sameWorld s u := by
  obtain ⟨hparams, hepoch, hpending, hresponses⟩ := h
  obtain ⟨hparams', hepoch', hpending', hresponses'⟩ := h'
  exact ⟨hparams'.trans hparams, hepoch'.trans hepoch, hpending'.trans hpending,
    hresponses'.trans hresponses⟩

theorem sameWorld_setReg (s : State) (r : RegName) (v : Word) : sameWorld s (s.setReg r v) :=
  ⟨rfl, rfl, rfl, rfl⟩

theorem sameWorld_storeBytes (s : State) (b : Buffer) (k : Nat) (bs : List Byte) :
    sameWorld s (s.storeBytes b k bs) := ⟨rfl, rfl, rfl, rfl⟩

theorem sameWorld_writeParsed (s : State) : sameWorld s (writeParsed s) :=
  ⟨params_writeParsed s, epoch_writeParsed s, pending_writeParsed s, responses_writeParsed s⟩

/-- No command reaches the parameters or the host's side of the bus (10_state.md R17, 40_command.md R84). -/
theorem sameWorld_exec_command {i : Instr} (hi : i.isCommand = true) (ht : exec i s = .next t) :
    sameWorld s t := by
  cases i <;> cases ht
  case nop => exact sameWorld_setReg s _ _
  case crcClear => exact ⟨rfl, rfl, rfl, rfl⟩
  case crcByte => exact ⟨rfl, rfl, rfl, rfl⟩
  case crcBuf =>
    rcases runCrcBuf_cases s with ⟨-, e⟩ | ⟨-, e⟩ <;> rw [e]
    · exact sameWorld_setReg s _ _
    · exact ⟨rfl, rfl, rfl, rfl⟩
  case frmBuild =>
    rcases runFrmBuild_cases s with ⟨-, e⟩ | ⟨-, e⟩ <;> rw [e]
    · exact sameWorld_setReg s _ _
    · exact ⟨rfl, rfl, rfl, rfl⟩
  case frmParse =>
    rcases runFrmParse_cases s with ⟨-, e⟩ | ⟨-, -, e⟩ | ⟨-, -, -, e⟩ <;> rw [e]
    · exact sameWorld_setReg s _ _
    · exact sameWorld_setReg s _ _
    · exact (sameWorld_writeParsed s).trans (sameWorld_setReg _ _ _)
  case pixConv => exact ⟨rfl, rfl, rfl, rfl⟩
  case pixBuf ord ifmt =>
    rcases runPixBuf_cases s ord ifmt with ⟨-, e⟩ | ⟨-, e⟩ <;> rw [e]
    · exact sameWorld_setReg s _ _
    · exact ⟨rfl, rfl, rfl, rfl⟩
  case busRead => cases hi
  case busWrite => cases hi

theorem sameWorld_executeCommand (w : Word) (s : State) : sameWorld s (executeCommand w s) := by
  cases hd : decodeCommand w with
  | ok i =>
    have hi := isCommand_of_decode hd
    exact sameWorld_exec_command hi (executeCommand_of_decode s hd hi)
  | error e => rw [executeCommand_of_error s hd]; exact sameWorld_setReg s _ _

/-! ### Every transaction is answered once -/

/-- A read only answers, and what it answers depends on no earlier answer (20_memory.md R60). -/
theorem runBusRead_answers (size : AccessSize) (off : Offset) (s : State) :
    ∃ a, runBusRead size off s = s.respond a ∧
      ∀ a', runBusRead size off (s.respond a') = (s.respond a').respond a := by
  cases h : busTarget s.params size off.toNat with
  | none => exact ⟨_, runBusRead_of_none s h, fun a' => runBusRead_of_none (s.respond a') h⟩
  | some target =>
    have same : ∀ a', (s.respond a').readTarget size target = s.readTarget size target := fun a' => by
      cases target <;> rfl
    refine ⟨_, runBusRead_of_some s h, fun a' => ?_⟩
    rw [runBusRead_of_some (s.respond a') h, same]

theorem sameWorld_writeTarget (size : AccessSize) (w : Word) (target : Target) (s : State) :
    sameWorld s (writeTarget size w target s) := by
  cases target with
  | register r =>
    rw [writeTarget]
    split
    case isTrue => exact sameWorld_executeCommand w (s.hostWriteReg .cmd w)
    case isFalse => exact sameWorld_setReg s r _
  | window b k => exact sameWorld_storeBytes s b k _

theorem runBusWrite_answers (size : AccessSize) (off : Offset) (w : Word) (s : State) :
    ∃ u a, runBusWrite size off w s = u.respond a ∧ sameWorld s u := by
  cases h : busTarget s.params size off.toNat with
  | none => exact ⟨s, _, runBusWrite_of_none s h, .refl s⟩
  | some target =>
    cases hr : target.readOnly with
    | true => exact ⟨s, _, runBusWrite_of_readOnly s h hr, .refl s⟩
    | false => exact ⟨_, _, runBusWrite_of_writable s h hr, sameWorld_writeTarget size w target s⟩

/-- A transaction that completes takes its event and adds one answer (20_memory.md R48, R63). -/
theorem step_transaction_answers (hp : s.pending = .bus req wdata :: rest) :
    ∃ u a, step s = .next (u.respond a) ∧ sameWorld (s.withPending rest) u := by
  rcases decodeRequest_cases req wdata with ⟨-, hd⟩ | ⟨-, -, hd⟩ | ⟨-, -, hd⟩
  · exact ⟨_, _, step_of_decodeRequest_error hp hd, .refl _⟩
  · obtain ⟨a, ha, -⟩ := runBusRead_answers (.ofBits (reqSize req)) (reqOffset req) (s.withPending rest)
    exact ⟨_, a, by rw [step_of_decodeRequest_ok hp hd, exec_busRead, ha], .refl _⟩
  · obtain ⟨u, a, hu, hw⟩ :=
      runBusWrite_answers (.ofBits (reqSize req)) (reqOffset req) wdata (s.withPending rest)
    exact ⟨u, a, by rw [step_of_decodeRequest_ok hp hd, exec_busWrite, hu], hw⟩

theorem step_reset (hp : s.pending = .reset :: rest) : step s = .next (applyReset (s.withPending rest)) := by
  simp [step, hp]

theorem step_resetDuring (hp : s.pending = .resetDuring req wdata :: rest) :
    step s = .next (abandonTransaction (s.withPending rest)) := by
  simp [step, hp]

/-! ### Writes that are not to CMD -/

theorem ne_cmd_of_busTarget {p : Config.Params} {target : Target} (hoff : off ≠ 0x00000#20)
    (h : busTarget p size off.toNat = some target) : target ≠ .register .cmd := by
  rintro rfl
  exact hoff (BitVec.eq_of_toNat_eq (busTarget_register.1 h).2)

theorem writeTarget_register (size : AccessSize) (w : Word) (s : State) (hr : r ≠ .cmd) :
    writeTarget size w (.register r) s = s.setReg r (w &&& r.fieldMask) := by
  rw [writeTarget, if_neg hr, State.hostWriteReg]

theorem writeTarget_window (size : AccessSize) (w : Word) (b : Buffer) (k : Nat) (s : State) :
    writeTarget size w (.window b k) s = s.storeBytes b k (bytesOfWord (accessBytes size) w) := rfl

/-- The same write again leaves what it left, whatever was answered between (20_memory.md R60). -/
theorem writeTarget_repeat {target : Target} (hcmd : target ≠ .register .cmd) (a : Response) :
    writeTarget size w target ((writeTarget size w target s).respond a) =
      (writeTarget size w target s).respond a := by
  cases target with
  | register r =>
    have hr : r ≠ .cmd := ne_of_apply_ne _ hcmd
    rw [writeTarget_register size w _ hr, writeTarget_register size w _ hr]
    exact congrArg (State.respond · a) (State.setReg_setReg s r _ _)
  | window b k =>
    rw [writeTarget_window, writeTarget_window]
    exact congrArg (State.respond · a) (State.storeBytes_storeBytes s b k _ _ rfl)

theorem runBusWrite_repeat (s : State) (size : AccessSize) (w : Word) (hoff : off ≠ 0x00000#20) :
    ∃ (u : State) (a : Response), runBusWrite size off w s = u.respond a ∧
      runBusWrite size off w (u.respond a) = (u.respond a).respond a := by
  cases h : busTarget s.params size off.toNat with
  | none => exact ⟨s, _, runBusWrite_of_none s h, runBusWrite_of_none (s.respond _) h⟩
  | some target =>
    cases hr : target.readOnly with
    | true => exact ⟨s, _, runBusWrite_of_readOnly s h hr, runBusWrite_of_readOnly (s.respond _) h hr⟩
    | false =>
      have hcmd := ne_cmd_of_busTarget hoff h
      refine ⟨_, _, runBusWrite_of_writable s h hr, ?_⟩
      rw [runBusWrite_of_writable, writeTarget_repeat hcmd]
      · rw [State.params_respond, (sameWorld_writeTarget size w target s).1]; exact h
      · exact hr

/-- What a write to a target may change (20_memory.md R49, R54): the one register, or its own bytes. -/
def writeFrame (size : AccessSize) (s t : State) : Target → Prop
  | .register r => sameRegsBut s t [r] ∧ sameBytes s t
  | .window b k => sameRegsBut s t [] ∧ sameBytesBut s t b k (accessBytes size)

theorem writeFrame.refl (size : AccessSize) (s : State) (target : Target) : writeFrame size s s target := by
  cases target with
  | register r => exact ⟨fun _ _ => rfl, fun _ _ => rfl⟩
  | window b k => exact ⟨fun _ _ => rfl, fun _ _ _ => rfl⟩

theorem writeFrame_writeTarget {target : Target} (hcmd : target ≠ .register .cmd) :
    writeFrame size s (writeTarget size w target s) target := by
  cases target with
  | register r =>
    rw [writeTarget_register size w s (ne_of_apply_ne _ hcmd)]
    refine ⟨fun r' hr' => State.reg_setReg_ne _ _ _ (by simpa using hr'), fun _ _ => rfl⟩
  | window b k =>
    rw [writeTarget_window]
    refine ⟨fun _ _ => rfl, fun b' j h => State.byteAt_storeBytes_outside _ _ _ _ ?_⟩
    rwa [length_bytesOfWord]

theorem runBusWrite_writeFrame {target : Target} (hoff : off ≠ 0x00000#20)
    (h : busTarget s.params size off.toNat = some target) :
    ∃ u a, runBusWrite size off w s = u.respond a ∧ sameWorld s u ∧ writeFrame size s u target := by
  cases hr : target.readOnly with
  | true => exact ⟨s, _, runBusWrite_of_readOnly s h hr, .refl s, .refl size s target⟩
  | false =>
    have hcmd := ne_cmd_of_busTarget hoff h
    exact ⟨_, _, runBusWrite_of_writable s h hr, sameWorld_writeTarget size w target s,
      writeFrame_writeTarget hcmd⟩

/-! ### Access to a register -/

theorem busTarget_word_registerOffset (p : Config.Params) (r : RegName) :
    busTarget p .word (BitVec.ofNat 20 r.offset).toNat = some (.register r) :=
  busTarget_register.2 ⟨rfl, toNat_registerOffset r⟩

theorem exec_busRead_register (s : State) (r : RegName) :
    exec (.busRead .word (BitVec.ofNat 20 r.offset)) s = .next (s.respond ⟨s.busReg r, .okay⟩) := by
  rw [exec_busRead, runBusRead_of_some s (busTarget_word_registerOffset s.params r), State.readTarget]

theorem exec_busWrite_register (s : State) (w : Word) (hcmd : r ≠ .cmd) (hr : r.readOnly = false) :
    exec (.busWrite .word (BitVec.ofNat 20 r.offset) w) s =
      .next ((s.setReg r (w &&& r.fieldMask)).respond ⟨0#32, .okay⟩) := by
  rw [exec_busWrite, runBusWrite_of_writable s (busTarget_word_registerOffset s.params r) hr,
    writeTarget_register _ _ _ hcmd]

/-- The registers whose access is RW in the register map, but CMD (10_state.md R21). -/
theorem writable_of_mem {r : RegName}
    (h : r ∈ [RegName.crcDin, .crcLen, .frmCmd, .frmAddr, .frmLen, .rxCount, .pixRgb, .pixinCount]) :
    r ≠ .cmd ∧ r.readOnly = false := by
  revert h; cases r <;> decide

/-! ### The bus lanes -/

theorem toNat_or_shiftLeft_byte (x : Byte) (v : Word) (hv : v.toNat < 2 ^ 24) :
    (x.setWidth 32 ||| v <<< 8).toNat = x.toNat + 256 * v.toNat := by
  have hx := x.isLt
  rw [BitVec.toNat_or, BitVec.toNat_shiftLeft, BitVec.toNat_setWidth_of_le (by decide),
    Nat.shiftLeft_eq, Nat.mod_eq_of_lt (by omega), Nat.mul_comm, Nat.or_comm,
    ← Nat.two_pow_add_eq_or_of_lt hx]
  omega

/-- The lanes of a read are the digits of its value to the base 256, lowest first (20_memory.md R52, R53). -/
theorem toNat_wordOfBytes {bs : List Byte} (h : bs.length ≤ 4) :
    (wordOfBytes bs).toNat = Nat.ofDigits 256 (bs.map BitVec.toNat) := by
  induction bs with
  | nil => rfl
  | cons x bs ih =>
    rw [List.length_cons] at h
    have hdigits : ∀ d ∈ bs.map BitVec.toNat, d < 256 := by
      simp only [List.mem_map]; rintro _ ⟨y, -, rfl⟩; exact y.isLt
    have hlt : (wordOfBytes bs).toNat < 2 ^ 24 := by
      rw [ih (by omega)]
      calc Nat.ofDigits 256 (bs.map BitVec.toNat) < 256 ^ (bs.map BitVec.toNat).length :=
            Nat.ofDigits_lt_base_pow_length (by decide) hdigits
        _ ≤ 256 ^ 3 := Nat.pow_le_pow_right (by decide) (by rw [List.length_map]; omega)
    rw [wordOfBytes, toNat_or_shiftLeft_byte x _ hlt, ih (by omega)]
    rfl

theorem ofDigits_map_range (n : Nat) (f : Nat → Nat) :
    Nat.ofDigits 256 ((List.range n).map f) = ((List.range n).map fun i => f i * 2 ^ (8 * i)).sum := by
  rw [Nat.ofDigits_eq_sum_mapIdx]
  congr 1
  refine List.ext_getElem (by simp) fun i h1 h2 => ?_
  simp [pow_mul]

theorem toNat_wordOfBytes_bytesAt (s : State) (b : Buffer) (k : Nat) {n : Nat} (h : n ≤ 4) :
    (wordOfBytes (s.bytesAt b k n)).toNat =
      ((List.range n).map fun i => (s.byteAt b (k + i)).toNat * 2 ^ (8 * i)).sum := by
  rw [toNat_wordOfBytes (by simpa using h), State.bytesAt, List.map_map, ofDigits_map_range]
  rfl

/-- Every byte after a write: those of its lanes inside, the older ones outside (20_memory.md R52, R61). -/
theorem byteAt_storeBytes_bytesOfWord (s : State) (b : Buffer) (k n : Nat) (w : Word) (j : Nat) :
    (s.storeBytes b k (bytesOfWord n w)).byteAt b j =
      if k ≤ j ∧ j < k + n then w.extractLsb' (8 * (j - k)) 8 else s.byteAt b j := by
  rw [State.byteAt_storeBytes, length_bytesOfWord]
  by_cases h : k ≤ j ∧ j < k + n
  · rw [if_pos ⟨rfl, h⟩, if_pos h, getD_bytesOfWord w (by omega)]
  · rw [if_neg (fun h' => h h'.2), if_neg h]

/-! ### Access to a window -/

/-- An aligned access of a legal size that lies within a buffer's capacity (20_memory.md R50 to R53). -/
structure WindowAccess (p : Config.Params) (size : AccessSize) (b : Buffer) (k : Nat) : Prop where
  legal : paramsLegal p
  notReserved : size ≠ .reserved
  aligned : (windowBase b + k) % accessBytes size = 0
  fits : k + accessBytes size ≤ capacity p b

theorem accessBytes_of_mem {j : Nat}
    (h : (size, j) ∈ [(AccessSize.byte, 0), (AccessSize.half, 1), (AccessSize.word, 2)]) :
    size ≠ .reserved ∧ accessBytes size = 2 ^ j := by
  simp only [List.mem_cons, Prod.mk.injEq, List.not_mem_nil, or_false] at h
  rcases h with ⟨rfl, rfl⟩ | ⟨rfl, rfl⟩ | ⟨rfl, rfl⟩ <;> decide

theorem WindowAccess.of_mem {p : Config.Params} {j : Nat} (hp : paramsLegal p)
    (hsize : (size, j) ∈ [(AccessSize.byte, 0), (AccessSize.half, 1), (AccessSize.word, 2)])
    (haligned : (windowBase b + k) % 2 ^ j = 0) (hfits : k + 2 ^ j ≤ capacity p b) :
    WindowAccess p size b k := by
  obtain ⟨hlegal, hbytes⟩ := accessBytes_of_mem hsize
  rw [← hbytes] at haligned hfits
  exact ⟨hp, hlegal, haligned, hfits⟩

theorem accessBytes_le_four (hsize : size ≠ .reserved) : accessBytes size ≤ 4 := by
  revert hsize; cases size <;> decide

theorem accessBytes_pos (size : AccessSize) : 0 < accessBytes size := by cases size <;> decide

theorem WindowAccess.busTarget {p : Config.Params} (h : WindowAccess p size b k) :
    busTarget p size (BitVec.ofNat 20 (windowBase b + k)).toNat = some (.window b k) := by
  have hk : k < capacity p b := by
    have := h.fits
    have := accessBytes_pos size
    omega
  rw [toNat_windowOffset h.legal hk]
  exact busTarget_window.2 ⟨h.notReserved, h.aligned, inAperture_of_lt_capacity h.legal hk, rfl, h.fits⟩

theorem exec_busRead_window (h : WindowAccess s.params size b k) :
    exec (.busRead size (BitVec.ofNat 20 (windowBase b + k))) s =
      .next (s.respond ⟨wordOfBytes (s.bytesAt b k (accessBytes size)), .okay⟩) := by
  rw [exec_busRead, runBusRead_of_some s h.busTarget, State.readTarget]

theorem exec_busWrite_window (h : WindowAccess s.params size b k) (hb : windowReadOnly b = false) (w : Word) :
    exec (.busWrite size (BitVec.ofNat 20 (windowBase b + k)) w) s =
      .next ((s.storeBytes b k (bytesOfWord (accessBytes size) w)).respond ⟨0#32, .okay⟩) := by
  rw [exec_busWrite, runBusWrite_of_writable s h.busTarget hb, writeTarget_window]

theorem windowReadOnly_of_mem (hb : b = .payload ∨ b = .rx ∨ b = .pixin) : windowReadOnly b = false := by
  rcases hb with rfl | rfl | rfl <;> rfl

end

/-- Settles O9: a transaction is answered once and reaches none of the model's own fields; a reset counts itself. -/
theorem stepConsumesOneEventInOrder : Obligations.StepConsumesOneEventInOrder := by
  intro s e rest hp
  cases e with
  | bus req wdata =>
    obtain ⟨u, a, hstep, hparams, hepoch, hpending, hresponses⟩ := step_transaction_answers hp
    exact ⟨u.respond a, hstep, hpending, hparams, hepoch, a, congrArg (a :: ·) hresponses⟩
  | reset => exact ⟨_, step_reset hp, rfl, rfl, rfl, rfl⟩
  | resetDuring req wdata => exact ⟨_, step_resetDuring hp, rfl, rfl, rfl, _, rfl⟩

/-- Settles O47: at a register's offset a 4-byte access names that register; the CMD write runs what its word decodes
to, or ILLEGAL. -/
theorem busRegisterAccess : Obligations.BusRegisterAccess := by
  intro s r w
  refine ⟨exec_busRead_register s r, fun hr => ?_, fun i hd => ?_, fun e hd => ?_⟩
  · obtain ⟨hcmd, hrw⟩ := writable_of_mem hr
    exact exec_busWrite_register s w hcmd hrw
  · exact ⟨_, executeCommand_of_decode _ hd (isCommand_of_decode hd), exec_cmdWrite s w⟩
  · rw [exec_cmdWrite, executeCommand_of_error _ hd]

/-- Settles O48: an access within the capacity names its bytes, and the lanes are the digits of the word. -/
theorem windowAccessIsLittleEndian : Obligations.WindowAccessIsLittleEndian := by
  intro s b k j size hp hsize haligned hfits
  have h : WindowAccess s.params size b k := .of_mem hp hsize haligned hfits
  obtain ⟨-, hbytes⟩ := accessBytes_of_mem hsize
  refine ⟨⟨_, ?_, exec_busRead_window h⟩, fun hb w =>
    ⟨_, exec_busWrite_window h (windowReadOnly_of_mem hb) w, fun i hi => ?_, fun b' i hout => ?_, rfl,
      sameWorld_storeBytes s b k _⟩⟩
  · rw [toNat_wordOfBytes_bytesAt _ _ _ (accessBytes_le_four h.notReserved), hbytes]
  · rw [byteAt_storeBytes_bytesOfWord, if_pos (by omega), Nat.add_sub_cancel_left]
  · apply State.byteAt_storeBytes_outside
    rwa [length_bytesOfWord, hbytes]

/-- Settles O49: a read is the sum of its bytes, and each byte after the write is a lane of it or the older byte. -/
theorem mixedWidthsReadBack : Obligations.MixedWidthsReadBack := by
  intro s b k k' j j' size size' w hp hb hsize hsize' haligned hfits haligned' hfits'
  have hwrite : WindowAccess s.params size b k := .of_mem hp hsize haligned hfits
  have hread : WindowAccess s.params size' b k' := .of_mem hp hsize' haligned' hfits'
  obtain ⟨-, hbytes⟩ := accessBytes_of_mem hsize
  obtain ⟨-, hbytes'⟩ := accessBytes_of_mem hsize'
  refine ⟨_, _, exec_busWrite_window hwrite (windowReadOnly_of_mem hb) w, exec_busRead_window hread, ?_⟩
  rw [toNat_wordOfBytes_bytesAt _ _ _ (accessBytes_le_four hread.notReserved), hbytes']
  simp only [State.byteAt_respond, byteAt_storeBytes_bytesOfWord, hbytes]

/-- Settles O50: a read changes nothing that a read looks at, and a repeated write stores what is there already. -/
theorem readsHaveNoEffectAndWritesRepeat : Obligations.ReadsHaveNoEffectAndWritesRepeat := by
  refine ⟨fun s size off => ?_, fun s size off w hoff => ?_⟩
  · obtain ⟨a, hread, hagain⟩ := runBusRead_answers size off s
    exact ⟨a, by rw [exec_busRead, hread], by rw [exec_busRead, hagain]⟩
  · obtain ⟨u, a, hwrite, hagain⟩ := runBusWrite_repeat s size w hoff
    exact ⟨u, a, by rw [exec_busWrite, hwrite], by rw [exec_busWrite, hagain]⟩

/-- Settles O51: the write is refused or is the effect on its target, which keeps the target's frame. -/
theorem busWriteFrame : Obligations.BusWriteFrame := by
  intro s size off w hoff
  cases h : busTarget s.params size off.toNat with
  | none => exact ⟨s, _, by rw [exec_busWrite, runBusWrite_of_none s h], .refl s, rfl, rfl⟩
  | some target =>
    obtain ⟨u, a, hwrite, hworld, hframe⟩ := runBusWrite_writeFrame (w := w) hoff h
    refine ⟨u, a, by rw [exec_busWrite, hwrite], hworld, ?_⟩
    cases target with
    | register r => exact ⟨(busTarget_register.1 h).2.symm, hframe⟩
    | window b k =>
      obtain ⟨-, -, -, hoffset, -⟩ := busTarget_window.1 h
      exact ⟨hoffset, hframe⟩

end Sys2Proof.Machine
end

section
/-! PROOF. The encoding (O1 to O6). A command word is legal exactly when it is the encoding of a command, and a request
exactly when it is the encoding of a transaction. A row of the opcode map matches exactly the encodings of its own
command, so that the map of masks and patterns and the decoder by fields agree. -/

namespace Sys2Proof.Machine

section
variable {w req wdata : Word} {opc : BitVec 8} {ord ifmt : BitVec 1} {i : Instr} {row : OpcodeRow}

/-! ### A one-bit field -/

theorem extractLsb'_one_eq_ofBool (w : Word) (k : Nat) : w.extractLsb' k 1 = BitVec.ofBool (w.getLsbD k) := by
  ext j hj
  obtain rfl : j = 0 := by omega
  simp

/-! ### The command word -/

theorem decodeCommand_eq_ok_iff :
    decodeCommand w = .ok i ↔
      cmdReserved w = 0#22 ∧ opcodeInstr (cmdOpcode w) (cmdOrd w) (cmdIfmt w) = some i := by
  constructor
  · intro h
    rcases decodeCommand_cases w with hd | ⟨hrsv, j, hj, hd⟩
    · cases hd.symm.trans h
    · cases hd.symm.trans h
      exact ⟨hrsv, hj⟩
  · rintro ⟨hrsv, hi⟩
    simp [decodeCommand, hrsv, hi]

/-- The opcode map read from right to left (30_encoding.md R72, R73). -/
theorem encode_of_opcodeInstr (h : opcodeInstr opc ord ifmt = some i) :
    encode i = .cmd (commandWord opc ord ifmt) := by
  rcases opcodeInstr_cases h with
    ⟨rfl, rfl⟩ | ⟨rfl, rfl, rfl⟩ | ⟨rfl, rfl, ⟨rfl, rfl⟩ | ⟨rfl, rfl⟩ | ⟨rfl, rfl⟩ | ⟨rfl, rfl⟩ | ⟨rfl, rfl⟩ | ⟨rfl, rfl⟩⟩
  · rw [encode, PixelOrder.bit_ofBit, InputFormat.bit_ofBit]
  · rw [encode, PixelOrder.bit_ofBit]
  all_goals rfl

theorem encode_of_decodeCommand (h : decodeCommand w = .ok i) : encode i = .cmd w := by
  obtain ⟨hrsv, hi⟩ := decodeCommand_eq_ok_iff.1 h
  rw [encode_of_opcodeInstr hi, commandWord_fields hrsv]

theorem decodeCommand_commandWord (h : opcodeInstr opc ord ifmt = some i) :
    decodeCommand (commandWord opc ord ifmt) = .ok i := by
  rw [decodeCommand_eq_ok_iff, cmdOpcode_commandWord, cmdOrd_commandWord, cmdIfmt_commandWord]
  exact ⟨cmdReserved_commandWord opc ord ifmt, h⟩

/-! ### The request word -/

theorem decodeRequest_requestWord (we : BitVec 1) (size : AccessSize) (off : Offset) (wdata : Word) :
    decodeRequest (requestWord we size.bits off) wdata =
      .ok (if we = 0#1 then .busRead size off else .busWrite size off wdata) := by
  rw [decodeRequest, reqReserved_requestWord, reqWriteEnable_requestWord, reqSize_requestWord,
    reqOffset_requestWord, AccessSize.ofBits_bits, apply_ite Except.ok]
  rfl

theorem encode_of_decodeRequest (h : decodeRequest req wdata = .ok i) :
    encode i = .req req (if req.getLsbD 22 then wdata else 0#32) := by
  have hbit : reqWriteEnable req = BitVec.ofBool (req.getLsbD 22) := extractLsb'_one_eq_ofBool req 22
  rcases decodeRequest_cases req wdata with ⟨-, hd⟩ | ⟨hrsv, hwe, hd⟩ | ⟨hrsv, hwe, hd⟩ <;> cases hd.symm.trans h
  · have hread : req.getLsbD 22 = false := BitVec.ofBool_eq_iff_eq.1 (hbit.symm.trans hwe)
    rw [encode, AccessSize.bits_ofBits, ← hwe, requestWord_fields hrsv, hread]
    rfl
  · have hwrite : req.getLsbD 22 = true := BitVec.ofBool_eq_iff_eq.1 (hbit.symm.trans hwe)
    rw [encode, AccessSize.bits_ofBits, ← hwe, requestWord_fields hrsv, hwrite]
    rfl

theorem decode_encode (i : Instr) : decode (encode i) = .ok i := by
  cases i with
  | nop => exact decodeCommand_commandWord rfl
  | crcClear => exact decodeCommand_commandWord rfl
  | crcByte => exact decodeCommand_commandWord rfl
  | crcBuf => exact decodeCommand_commandWord rfl
  | frmBuild => exact decodeCommand_commandWord rfl
  | frmParse => exact decodeCommand_commandWord rfl
  | pixConv ord => exact decodeCommand_commandWord (by simp [opcodeInstr, PixelOrder.ofBit_bit])
  | pixBuf ord ifmt =>
    exact decodeCommand_commandWord (by simp [opcodeInstr, PixelOrder.ofBit_bit, InputFormat.ofBit_bit])
  | busRead size off => exact decodeRequest_requestWord 0#1 size off _
  | busWrite size off wdata => exact decodeRequest_requestWord 1#1 size off wdata

/-! ### The opcode map -/

theorem freeOrd_eq_ofBit (w : Word) : freeOrd w = .ofBit (cmdOrd w) := by
  rw [cmdOrd, extractLsb'_one_eq_ofBool, freeOrd]
  cases w.getLsbD 8 <;> rfl

theorem freeIfmt_eq_ofBit (w : Word) : freeIfmt w = .ofBit (cmdIfmt w) := by
  rw [cmdIfmt, extractLsb'_one_eq_ofBool, freeIfmt]
  cases w.getLsbD 9 <;> rfl

/-- A match is a match of each field. -/
theorem field_of_match (h : w &&& row.mask = row.pattern) (k n : Nat) :
    w.extractLsb' k n &&& row.mask.extractLsb' k n = row.pattern.extractLsb' k n := by
  rw [← h, BitVec.extractLsb'_and]

/-- Every row fixes OPC and asks for RSV = 0 (30_encoding.md R73, R74). -/
theorem row_fixes_opcode_and_reserved (hrow : row ∈ opcodeMap) :
    cmdReserved row.mask = BitVec.allOnes 22 ∧ cmdReserved row.pattern = 0#22 ∧
      cmdOpcode row.mask = BitVec.allOnes 8 := by
  revert row
  decide

theorem reserved_and_opcode_of_match (hrow : row ∈ opcodeMap) (h : w &&& row.mask = row.pattern) :
    cmdReserved w = 0#22 ∧ cmdOpcode w = cmdOpcode row.pattern := by
  have hrsv : cmdReserved w &&& cmdReserved row.mask = cmdReserved row.pattern := field_of_match h 10 22
  have hopc : cmdOpcode w &&& cmdOpcode row.mask = cmdOpcode row.pattern := field_of_match h 0 8
  obtain ⟨hmask, hzero, hmask'⟩ := row_fixes_opcode_and_reserved hrow
  rw [hmask, BitVec.and_allOnes, hzero] at hrsv
  rw [hmask', BitVec.and_allOnes] at hopc
  exact ⟨hrsv, hopc⟩

/-- A word that a row matches decodes to the row's command, with the bits the row leaves free. -/
theorem decodeCommand_of_match (hrow : row ∈ opcodeMap) (h : w &&& row.mask = row.pattern) :
    decodeCommand w = .ok (row.meaning w) := by
  obtain ⟨hrsv, hopc⟩ := reserved_and_opcode_of_match hrow h
  refine decodeCommand_eq_ok_iff.2 ⟨hrsv, ?_⟩
  rw [hopc]
  simp only [opcodeMap, List.mem_cons, List.not_mem_nil, or_false] at hrow
  rcases hrow with rfl | rfl | rfl | rfl | rfl | rfl | rfl | rfl
  -- The rows that leave no bit free: the word is the pattern itself.
  iterate 6
    · obtain rfl := BitVec.and_allOnes.symm.trans h
      rfl
  · have hifmt : cmdIfmt w = 0#1 := BitVec.and_allOnes.symm.trans (field_of_match h 9 1)
    dsimp only
    rw [hifmt, freeOrd_eq_ofBit]
    rfl
  · dsimp only
    rw [freeOrd_eq_ofBit, freeIfmt_eq_ofBit]
    rfl

/-- The encoding of a command is matched by a row. -/
theorem match_of_encode (h : encode i = .cmd w) : ∃ row ∈ opcodeMap, w &&& row.mask = row.pattern := by
  cases i <;> cases h
  case pixConv ord => cases ord <;> decide
  case pixBuf ord ifmt => cases ord <;> cases ifmt <;> decide
  all_goals decide

theorem legal_iff_match : (∃ i, decodeCommand w = .ok i) ↔ ∃ row ∈ opcodeMap, w &&& row.mask = row.pattern :=
  ⟨fun ⟨_, hd⟩ => match_of_encode (encode_of_decodeCommand hd),
    fun ⟨row, hrow, h⟩ => ⟨row.meaning w, decodeCommand_of_match hrow h⟩⟩

/-- The opcodes of the rows differ (30_encoding.md R73). -/
theorem pattern_eq_of_opcode_eq : ∀ row ∈ opcodeMap, ∀ row' ∈ opcodeMap,
    cmdOpcode row.pattern = cmdOpcode row'.pattern → row.pattern = row'.pattern := by decide

theorem error_iff_no_match :
    (∃ e, decodeCommand w = .error e) ↔ ∀ row ∈ opcodeMap, w &&& row.mask ≠ row.pattern := by
  have h := (legal_iff_match (w := w)).not
  push Not at h
  rw [← h]
  cases decodeCommand w <;> simp

/-! ### The illegal words -/

/-- OPC not in the map, or ORD or IFMT set for an opcode that does not use it (30_encoding.md R74). -/
theorem opcodeInstr_eq_none_iff :
    opcodeInstr opc ord ifmt = none ↔
      opc.toNat ∉ [0x00, 0x01, 0x02, 0x03, 0x10, 0x11, 0x20, 0x21] ∨
      (ord.toNat = 1 ∧ opc.toNat ∉ [0x20, 0x21]) ∨ (ifmt.toNat = 1 ∧ opc.toNat ≠ 0x21) := by
  have hord := ord.isLt
  have hifmt := ifmt.isLt
  simp only [opcodeInstr, ite_eq_iff, ← BitVec.toNat_inj, BitVec.toNat_ofNat, List.mem_cons, List.not_mem_nil,
    reduceCtorEq, ne_eq, and_false, and_true, false_or, or_false]
  omega

theorem decodeCommand_eq_error_iff :
    (∃ e, decodeCommand w = .error e) ↔
      cmdReserved w ≠ 0#22 ∨ opcodeInstr (cmdOpcode w) (cmdOrd w) (cmdIfmt w) = none := by
  unfold decodeCommand
  by_cases hrsv : cmdReserved w = 0#22
  · cases opcodeInstr (cmdOpcode w) (cmdOrd w) (cmdIfmt w) <;> simp [hrsv]
  · simp [hrsv]

/-- A word is illegal exactly when it has one of the faults that the spec lists (30_encoding.md R74). -/
theorem error_iff_illegal :
    (∃ e, decodeCommand w = .error e) ↔
      w.toNat / 2 ^ 10 ≠ 0 ∨
        w.toNat % 2 ^ 8 ∉ [0x00, 0x01, 0x02, 0x03, 0x10, 0x11, 0x20, 0x21] ∨
        (w.toNat / 2 ^ 8 % 2 = 1 ∧ w.toNat % 2 ^ 8 ∉ [0x20, 0x21]) ∨
        (w.toNat / 2 ^ 9 % 2 = 1 ∧ w.toNat % 2 ^ 8 ≠ 0x21) := by
  rw [decodeCommand_eq_error_iff, opcodeInstr_eq_none_iff, toNat_cmdOpcode, toNat_cmdOrd, toNat_cmdIfmt,
    ← toNat_cmdReserved, ← BitVec.toNat_ne_iff_ne]
  rfl

end

/-- Settles O4: the decoder finds again the fields the encoder has laid out. -/
theorem decodeEncodeAgree : Obligations.DecodeEncodeAgree := decode_encode

/-- Settles O2: a matched word decodes to the row's command, a legal word is an encoding and so is matched, and the
opcode tells the rows apart. -/
theorem commandWordLegalExactlyByOpcodeMap : Obligations.CommandWordLegalExactlyByOpcodeMap := by
  intro w
  refine ⟨legal_iff_match, fun row hrow h => decodeCommand_of_match hrow h, fun row hrow row' hrow' h h' => ?_⟩
  obtain ⟨-, hopc⟩ := reserved_and_opcode_of_match hrow h
  obtain ⟨-, hopc'⟩ := reserved_and_opcode_of_match hrow' h'
  exact pattern_eq_of_opcode_eq row hrow row' hrow' (hopc.symm.trans hopc')

/-- Settles O3: the two ways to call a word illegal are the decoder's, and the CMD write runs what the decoder reads. -/
theorem illegalWordOnlySetsErr : Obligations.IllegalWordOnlySetsErr := by
  intro w s
  refine ⟨error_iff_illegal.symm.trans error_iff_no_match, fun hno => ?_, fun row hrow h => ?_⟩
  · obtain ⟨e, hd⟩ := error_iff_no_match.2 hno
    rw [exec_cmdWrite, executeCommand_of_error _ hd]
  · have hd := decodeCommand_of_match hrow h
    exact ⟨_, executeCommand_of_decode _ hd (isCommand_of_decode hd), exec_cmdWrite s w⟩

/-- Settles O5: the fields of a legal word are all the word holds. -/
theorem decodedWordsReencode : Obligations.DecodedWordsReencode :=
  ⟨fun _ _ => encode_of_decodeCommand, fun _ _ _ => encode_of_decodeRequest⟩

/-- Settles O1: thirteen closed words, each evaluated. -/
theorem specWordsDecodeToTheirInstructions : Obligations.SpecWordsDecodeToTheirInstructions := by
  unfold Obligations.SpecWordsDecodeToTheirInstructions
  decide

/-- Settles O6: the step of a transaction whose request decodes. -/
theorem stepRunsDecodedInstruction : Obligations.StepRunsDecodedInstruction :=
  fun _ _ _ _ _ hp hd => step_of_decodeRequest_ok hp hd

end Sys2Proof.Machine
end

section
/-! PROOF. A command as an effect. A command reads its operands once and then writes a list of registers, stores at most
one row of bytes from index 0, and writes STATUS last. The effect is a function of the operands alone, and applying it
overwrites what it writes and keeps the rest. -/

namespace Sys2Proof.Machine

section
variable {s t : State} {r : RegName} {v : Word} {b : Buffer} {k : Nat} {i : Instr}
  {l l' : List (RegName × Word)}

/-! ### Several register writes -/

theorem Regs.set_comm (g : Regs) {r r' : RegName} (h : r ≠ r') (v v' : Word) :
    (g.set r v).set r' v' = (g.set r' v').set r v := by
  refine Regs.ext_get fun q => ?_
  simp only [Regs.get_set]
  by_cases hq : q = r
  · rw [if_neg (hq ▸ h), if_pos hq, if_pos hq]
  · rw [if_neg hq, if_neg hq]

theorem State.setReg_comm {r' : RegName} {v' : Word} (h : r ≠ r') :
    (s.setReg r v).setReg r' v' = (s.setReg r' v').setReg r v :=
  congrArg (fun g => { s with regs := g }) (Regs.set_comm s.regs h v v')

theorem State.setRegs_cons (s : State) (e : RegName × Word) (l : List (RegName × Word)) :
    s.setRegs (e :: l) = (s.setReg e.1 e.2).setRegs l := rfl

theorem State.setRegs_append_singleton (s : State) (l : List (RegName × Word)) (r : RegName) (v : Word) :
    s.setRegs (l ++ [(r, v)]) = (s.setRegs l).setReg r v := by
  simp [State.setRegs, State.setReg]

/-- An earlier write to a register that the list does not write may as well come last. -/
theorem State.setReg_setRegs_of_not_mem (h : r ∉ l.map Prod.fst) :
    (s.setReg r v).setRegs l = (s.setRegs l).setReg r v := by
  induction l generalizing s with
  | nil => rfl
  | cons e l ih =>
    rw [List.map_cons, List.mem_cons, not_or] at h
    obtain ⟨hne, hl⟩ := h
    rw [State.setRegs_cons, State.setReg_comm hne, ih hl, State.setRegs_cons]

/-- An earlier write to a register that the list writes is lost. -/
theorem State.setReg_setRegs_of_mem (h : r ∈ l.map Prod.fst) : (s.setReg r v).setRegs l = s.setRegs l := by
  induction l generalizing s with
  | nil => cases h
  | cons e l ih =>
    rw [State.setRegs_cons, State.setRegs_cons]
    by_cases he : r = e.1
    · rw [he, State.setReg_setReg]
    · have hl : r ∈ l.map Prod.fst := by simpa [he] using h
      rw [State.setReg_comm he, ih hl]

theorem State.setRegs_setRegs_of_subset (h : l'.map Prod.fst ⊆ l.map Prod.fst) :
    (s.setRegs l').setRegs l = s.setRegs l := by
  induction l' generalizing s with
  | nil => rfl
  | cons e l' ih =>
    rw [List.map_cons, List.cons_subset] at h
    obtain ⟨he, hl'⟩ := h
    rw [State.setRegs_cons, ih hl', State.setReg_setRegs_of_mem he]

theorem State.reg_setRegs_of_not_mem (h : r ∉ l.map Prod.fst) : (s.setRegs l).reg r = s.reg r := by
  induction l generalizing s with
  | nil => rfl
  | cons e l ih =>
    rw [List.map_cons, List.mem_cons, not_or] at h
    obtain ⟨hne, hl⟩ := h
    rw [State.setRegs_cons, ih hl, State.reg_setReg_ne _ _ _ hne]

/-- What a listed register holds afterwards is the list's alone. -/
theorem State.reg_setRegs_of_mem (h : r ∈ l.map Prod.fst) : (s.setRegs l).reg r = (t.setRegs l).reg r := by
  induction l generalizing s t with
  | nil => cases h
  | cons e l ih =>
    rw [State.setRegs_cons, State.setRegs_cons]
    by_cases hl : r ∈ l.map Prod.fst
    · exact ih hl
    · obtain rfl : r = e.1 := by simpa [hl] using h
      rw [State.reg_setRegs_of_not_mem hl, State.reg_setRegs_of_not_mem hl, State.reg_setReg_same,
        State.reg_setReg_same]

/-! ### The effect of a command -/

/-- All that a command does to a state: the result registers it writes, in order, the bytes it stores from index 0 of a
buffer, and the code it leaves in STATUS (40_command.md R83, R84, R86). -/
structure Effect where
  regs : List (RegName × Word)
  bytes : Option (Buffer × List Byte)
  code : ErrorCode

/-- The effect of a command that raises an error, and of NOP (40_command.md R83, R88). -/
def Effect.onlyStatus (e : ErrorCode) : Effect := ⟨[], none, e⟩

/-- Every register write of an effect, STATUS last (40_command.md R86). -/
def Effect.writes (f : Effect) : List (RegName × Word) := f.regs ++ [(.status, f.code.statusWord)]

def State.storeRow (s : State) : Option (Buffer × List Byte) → State
  | none => s
  | some (b, bs) => s.storeBytes b 0 bs

def Effect.apply (f : Effect) (s : State) : State := (s.storeRow f.bytes).setRegs f.writes

/-- The registers that a successful parse writes, with their values (42_frame.md R107). -/
def State.parsedRegs (s : State) : List (RegName × Word) :=
  [(.rxCmd, (s.byteAt .rx 1).setWidth 32),
   (.rxAddr, (pair (s.byteAt .rx 2) (s.byteAt .rx 3)).setWidth 32),
   (.rxLen, s.declaredLen.setWidth 32),
   (.rxPlen, BitVec.ofNat 32 s.parsePlen),
   (.rxCrc, s.parseRcrc.setWidth 32),
   (.rxCrcCalc, s.parseCalc.setWidth 32),
   (.rxInfo, rxInfoWord s.parseTrunc s.parsePresent s.parseMatch)]

theorem writeParsed_eq_setRegs (s : State) : writeParsed s = s.setRegs s.parsedRegs := rfl

/-- The effect that a command computes from what the state holds (40_command.md R82). The two transactions are no
commands; `exec_command` says nothing of them. -/
def commandEffect (i : Instr) (s : State) : Effect :=
  match i with
  | .nop => .onlyStatus .ok
  | .crcClear => ⟨[(.crc, 0#32)], none, .ok⟩
  | .crcByte => ⟨[(.crc, (crcStep s.crcValue s.crcDinByte).setWidth 32)], none, .ok⟩
  | .crcBuf =>
    if s.params.maxPayload < s.crcLenCount then .onlyStatus .length
    else ⟨[(.crc, (crcFrom s.crcValue (s.bytesAt .payload 0 s.crcLenCount)).setWidth 32)], none, .ok⟩
  | .frmBuild =>
    if s.params.maxPayload < s.frmLenCount then .onlyStatus .length
    else ⟨[(.txCount, BitVec.ofNat 32 (s.frmLenCount + 8)),
           (.frmCrc, (frameCrc s.frmCmdByte s.frmAddrHalf s.framePayload).setWidth 32)],
          some (.tx, frameBytes s.frmCmdByte s.frmAddrHalf s.framePayload), .ok⟩
  | .frmParse =>
    if capacity s.params .rx < s.rxCountCount then .onlyStatus .length
    else if s.rxCountCount < 6 ∨ s.byteAt .rx 0 ≠ frameMarker then .onlyStatus .malformedFrame
    else ⟨s.parsedRegs, none, .ok⟩
  | .pixConv ord => ⟨[(.pix565, (to565 s.pixRed s.pixGreen s.pixBlue ord).setWidth 32)], none, .ok⟩
  | .pixBuf ord ifmt =>
    if s.pixinCountCount ≠ s.params.pixels * bytesPerPixel ifmt then .onlyStatus .byteCount
    else ⟨[], some (.pixout, s.convertedBytes ord ifmt), .ok⟩
  | .busRead _ _ | .busWrite _ _ _ => .onlyStatus .ok

theorem Effect.apply_ok (l : List (RegName × Word)) (o : Option (Buffer × List Byte)) (s : State) :
    Effect.apply ⟨l, o, .ok⟩ s = succeed ((s.storeRow o).setRegs l) :=
  State.setRegs_append_singleton _ _ _ _

/-- Running a command is applying the effect it computes. -/
theorem exec_command (hi : i.isCommand = true) (s : State) : exec i s = .next ((commandEffect i s).apply s) := by
  cases i
  case nop => rfl
  case crcClear => rfl
  case crcByte => rfl
  case crcBuf =>
    rcases runCrcBuf_cases s with ⟨h, e⟩ | ⟨h, e⟩ <;> rw [exec_crcBuf, e, commandEffect]
    · rw [if_pos h]; rfl
    · rw [if_neg (not_lt.2 h)]; rfl
  case frmBuild =>
    rcases runFrmBuild_cases s with ⟨h, e⟩ | ⟨h, e⟩ <;> rw [exec_frmBuild, e, commandEffect]
    · rw [if_pos h]; rfl
    · rw [if_neg (not_lt.2 h)]; rfl
  case frmParse =>
    rcases runFrmParse_cases s with ⟨h, e⟩ | ⟨h, hbad, e⟩ | ⟨h, h6, hm, e⟩ <;> rw [exec_frmParse, e, commandEffect]
    · rw [if_pos h]; rfl
    · rw [if_neg (not_lt.2 h), if_pos hbad]; rfl
    · rw [if_neg (not_lt.2 h), if_neg (by simp [h6, hm]), Effect.apply_ok, writeParsed_eq_setRegs]; rfl
  case pixConv ord => rfl
  case pixBuf ord ifmt =>
    rcases runPixBuf_cases s ord ifmt with ⟨h, e⟩ | ⟨h, e⟩ <;> rw [exec_pixBuf, e, commandEffect]
    · rw [if_pos h]; rfl
    · rw [if_neg (not_not.2 h)]; rfl
  case busRead => cases hi
  case busWrite => cases hi

/-- The bytes a command stores are those of a built frame and of a converted image (40_command.md R84). -/
theorem commandStores_cases (h : s.commandStores i b k) :
    (i = .frmBuild ∧ b = .tx ∧ k < s.frmLenCount + 8) ∨
    (∃ ord ifmt, i = .pixBuf ord ifmt ∧ b = .pixout ∧ k < 2 * s.params.pixels) := by
  unfold State.commandStores at h
  split at h
  · exact .inl ⟨rfl, rfl, h⟩
  · exact .inr ⟨_, _, rfl, rfl, h⟩
  · exact h.elim

/-- The effect of a success: all the result registers, and a row that holds all the bytes to store. -/
structure Effect.Succeeds (f : Effect) (i : Instr) (s : State) : Prop where
  code : f.code = .ok
  regs : f.regs.map Prod.fst = i.resultRegs
  bytes : ∀ b k, s.commandStores i b k → ∃ bs, f.bytes = some (b, bs) ∧ k < bs.length

theorem Effect.Succeeds.of_stores_nothing {f : Effect} (hcode : f.code = .ok)
    (hregs : f.regs.map Prod.fst = i.resultRegs) (hbuild : i ≠ .frmBuild) (hpix : ∀ ord ifmt, i ≠ .pixBuf ord ifmt) :
    f.Succeeds i s where
  code := hcode
  regs := hregs
  bytes b k h := by
    rcases commandStores_cases h with ⟨hi, -⟩ | ⟨ord, ifmt, hi, -⟩
    · exact absurd hi hbuild
    · exact absurd hi (hpix ord ifmt)

/-- A command raises an error and does nothing else, or succeeds (40_command.md R83, R84). -/
theorem commandEffect_cases (hi : i.isCommand = true) (s : State) :
    (∃ e, e ≠ .ok ∧ commandEffect i s = .onlyStatus e) ∨ (commandEffect i s).Succeeds i s := by
  cases i
  case nop => exact .inr (.of_stores_nothing rfl rfl nofun nofun)
  case crcClear => exact .inr (.of_stores_nothing rfl rfl nofun nofun)
  case crcByte => exact .inr (.of_stores_nothing rfl rfl nofun nofun)
  case crcBuf =>
    rw [commandEffect]
    split
    · exact .inl ⟨.length, nofun, rfl⟩
    · exact .inr (.of_stores_nothing rfl rfl nofun nofun)
  case frmBuild =>
    rw [commandEffect]
    split
    · exact .inl ⟨.length, nofun, rfl⟩
    · refine .inr ⟨rfl, rfl, fun b k h => ?_⟩
      obtain ⟨-, rfl, hk⟩ | ⟨_, _, ⟨⟩, -⟩ := commandStores_cases h
      exact ⟨_, rfl, by simpa using hk⟩
  case frmParse =>
    rw [commandEffect]
    split
    · exact .inl ⟨.length, nofun, rfl⟩
    split
    · exact .inl ⟨.malformedFrame, nofun, rfl⟩
    · exact .inr (.of_stores_nothing rfl rfl nofun nofun)
  case pixConv ord => exact .inr (.of_stores_nothing rfl rfl nofun nofun)
  case pixBuf ord ifmt =>
    rw [commandEffect]
    split
    · exact .inl ⟨.byteCount, nofun, rfl⟩
    · refine .inr ⟨rfl, rfl, fun b k h => ?_⟩
      obtain ⟨⟨⟩, -⟩ | ⟨_, _, -, rfl, hk⟩ := commandStores_cases h
      exact ⟨_, rfl, by simpa using hk⟩
  case busRead => cases hi
  case busWrite => cases hi

/-! ### What an effect leaves -/

variable {f : Effect}

theorem Effect.mem_writes : r ∈ f.writes.map Prod.fst ↔ r ∈ f.regs.map Prod.fst ∨ r = .status := by
  simp [Effect.writes]

theorem State.reg_storeRow (s : State) (o : Option (Buffer × List Byte)) (r : RegName) :
    (s.storeRow o).reg r = s.reg r := by
  rcases o with _ | ⟨b, bs⟩ <;> rfl

theorem State.storeRow_setReg (s : State) (o : Option (Buffer × List Byte)) (r : RegName) (v : Word) :
    (s.setReg r v).storeRow o = (s.storeRow o).setReg r v := by
  rcases o with _ | ⟨b, bs⟩ <;> rfl

theorem State.storeRow_setRegs (s : State) (o : Option (Buffer × List Byte)) (l : List (RegName × Word)) :
    (s.setRegs l).storeRow o = (s.storeRow o).setRegs l := by
  rcases o with _ | ⟨b, bs⟩ <;> rfl

theorem State.storeRow_storeRow (s : State) (o : Option (Buffer × List Byte)) :
    (s.storeRow o).storeRow o = s.storeRow o := by
  rcases o with _ | ⟨b, bs⟩
  · rfl
  · exact State.storeBytes_storeBytes s b 0 bs bs rfl

theorem Effect.apply_onlyStatus (e : ErrorCode) (s : State) :
    (Effect.onlyStatus e).apply s = s.setReg .status e.statusWord := rfl

theorem Effect.status_apply (f : Effect) (s : State) : (f.apply s).reg .status = f.code.statusWord := by
  rw [Effect.apply, Effect.writes, State.setRegs_append_singleton, State.reg_setReg_same]

theorem statusWord_eq_zero_iff (e : ErrorCode) : e.statusWord.extractLsb' 0 4 = 0#4 ↔ e = .ok := by
  cases e <;> decide

theorem Effect.err_apply (f : Effect) (s : State) : (f.apply s).err = 0#4 ↔ f.code = .ok := by
  rw [State.err, f.status_apply, statusWord_eq_zero_iff]

theorem Effect.reg_apply_of_not_mem (h : r ∉ f.writes.map Prod.fst) : (f.apply s).reg r = s.reg r := by
  rw [Effect.apply, State.reg_setRegs_of_not_mem h, State.reg_storeRow]

theorem Effect.reg_apply_of_mem (h : r ∈ f.writes.map Prod.fst) : (f.apply s).reg r = (f.apply t).reg r :=
  State.reg_setRegs_of_mem h

theorem Effect.apply_setReg_of_mem (h : r ∈ f.writes.map Prod.fst) : f.apply (s.setReg r v) = f.apply s := by
  rw [Effect.apply, State.storeRow_setReg, State.setReg_setRegs_of_mem h, Effect.apply]

theorem Effect.apply_setReg_of_not_mem (h : r ∉ f.writes.map Prod.fst) :
    f.apply (s.setReg r v) = (f.apply s).setReg r v := by
  rw [Effect.apply, State.storeRow_setReg, State.setReg_setRegs_of_not_mem h, Effect.apply]

/-- The same effect once more changes nothing (40_command.md R90). -/
theorem Effect.apply_apply (f : Effect) (s : State) : f.apply (f.apply s) = f.apply s := by
  unfold Effect.apply
  rw [State.storeRow_setRegs, State.storeRow_storeRow, State.setRegs_setRegs_of_subset (List.Subset.refl _)]

theorem Effect.byteAt_apply_of_stored {bs : List Byte} (h : f.bytes = some (b, bs)) (hk : k < bs.length) :
    (f.apply s).byteAt b k = bs.getD k 0 := by
  rw [Effect.apply, h, State.byteAt_setRegs, State.storeRow, State.byteAt_storeBytes,
    if_pos ⟨rfl, Nat.zero_le k, by omega⟩, Nat.sub_zero]

/-- STATUS tells a success from a failure (40_command.md R86). -/
theorem succeeds_of_err_eq_zero (hi : i.isCommand = true) (herr : ((commandEffect i s).apply s).err = 0#4) :
    (commandEffect i s).Succeeds i s := by
  rcases commandEffect_cases hi s with ⟨e, he, hf⟩ | hf
  · rw [Effect.err_apply, hf] at herr
    exact absurd herr he
  · exact hf

theorem onlyStatus_of_err_ne_zero (hi : i.isCommand = true) (herr : ((commandEffect i s).apply s).err ≠ 0#4) :
    ∃ e, commandEffect i s = .onlyStatus e := by
  rcases commandEffect_cases hi s with ⟨e, -, hf⟩ | hf
  · exact ⟨e, hf⟩
  · exact absurd ((Effect.err_apply _ s).2 hf.code) herr

/-- A success writes all the result registers. -/
theorem Effect.Succeeds.mem_writes (hf : f.Succeeds i s) (hr : r ∈ i.resultRegs) : r ∈ f.writes.map Prod.fst :=
  Effect.mem_writes.2 (.inl (hf.regs ▸ hr))

/-- A command writes registers of its write set only (40_command.md R84). -/
theorem mem_writes_commandEffect (hi : i.isCommand = true)
    (h : r ∈ (commandEffect i s).writes.map Prod.fst) : r ∈ .status :: i.resultRegs := by
  rw [Effect.mem_writes] at h
  rcases commandEffect_cases hi s with ⟨e, -, hf⟩ | hf
  · rw [hf] at h
    obtain rfl : r = .status := by simpa [Effect.onlyStatus] using h
    exact .head _
  · rw [hf.regs] at h
    simpa [or_comm] using h

theorem writeSet_subset_readOnlyRegs (i : Instr) : .status :: i.resultRegs ⊆ readOnlyRegs := by
  cases i <;> simp [Instr.resultRegs, readOnlyRegs]

theorem sameRegsBut_exec_command (hi : i.isCommand = true) (ht : exec i s = .next t) :
    sameRegsBut s t (.status :: i.resultRegs) := by
  cases (exec_command hi s).symm.trans ht
  exact fun r hr => Effect.reg_apply_of_not_mem fun h => hr (mem_writes_commandEffect hi h)

/-! ### A command depends on its inputs only -/

/-- The second state holds what the first does in all that a command reads (40_command.md R82). -/
structure SameInputs (i : Instr) (s s' : State) : Prop where
  params : s'.params = s.params
  regs : ∀ r ∈ i.operandRegs, s'.reg r = s.reg r
  bytes : ∀ b ∈ i.inputBuffers, ∀ k, s'.byteAt b k = s.byteAt b k

theorem SameInputs.setReg (s : State) (v : Word) (h : r ∉ i.operandRegs) : SameInputs i s (s.setReg r v) where
  params := rfl
  regs _ hr := State.reg_setReg_ne _ _ _ (ne_of_mem_of_not_mem hr h)
  bytes _ _ _ := rfl

section
variable {s' : State}

theorem bytesAt_congr_buffer (h : ∀ k, s'.byteAt b k = s.byteAt b k) (k n : Nat) :
    s'.bytesAt b k n = s.bytesAt b k n :=
  State.bytesAt_congr fun j _ => h (k + j)

/-- What a parse writes depends on RX_COUNT and RX only (42_frame.md R107). -/
theorem parsedRegs_congr (hcount : s'.rxCountCount = s.rxCountCount) (hrx : ∀ k, s'.byteAt .rx k = s.byteAt .rx k) :
    s'.parsedRegs = s.parsedRegs := by
  have hlen : s'.declaredLen = s.declaredLen := by rw [State.declaredLen, hrx, hrx, State.declaredLen]
  have htrunc : s'.parseTrunc = s.parseTrunc := by rw [State.parseTrunc, hcount, hlen, State.parseTrunc]
  have hpresent : s'.parsePresent = s.parsePresent := by rw [State.parsePresent, hcount, hlen, State.parsePresent]
  have hplen : s'.parsePlen = s.parsePlen := by rw [State.parsePlen, htrunc, hcount, hlen, State.parsePlen]
  have hrcrc : s'.parseRcrc = s.parseRcrc := by rw [State.parseRcrc, hpresent, hlen, hrx, hrx, State.parseRcrc]
  have hcalc : s'.parseCalc = s.parseCalc := by
    rw [State.parseCalc, htrunc, hlen, bytesAt_congr_buffer hrx, State.parseCalc]
  have hmatch : s'.parseMatch = s.parseMatch := by rw [State.parseMatch, hpresent, hrcrc, hcalc, State.parseMatch]
  rw [State.parsedRegs, hlen, htrunc, hpresent, hplen, hrcrc, hcalc, hmatch, hrx, hrx, hrx, State.parsedRegs]

/-- The converted image depends on PIXIN only (43_pixel.md R119). -/
theorem convertedBytes_congr (hparams : s'.params = s.params) (hpixin : ∀ k, s'.byteAt .pixin k = s.byteAt .pixin k)
    (ord : PixelOrder) (ifmt : InputFormat) : s'.convertedBytes ord ifmt = s.convertedBytes ord ifmt := by
  simp only [State.convertedBytes, State.lanePixel, hparams, hpixin]

end

/-- The effect is computed from the operands and the input buffers only (40_command.md R82, R87). -/
theorem commandEffect_congr {s' : State} (h : SameInputs i s s') : commandEffect i s' = commandEffect i s := by
  obtain ⟨hparams, hregs, hbytes⟩ := h
  cases i
  case nop => rfl
  case crcClear => rfl
  case crcByte =>
    have hcrc : s'.crcValue = s.crcValue := by simp only [State.crcValue, hregs .crc (.head _)]
    have hdin : s'.crcDinByte = s.crcDinByte := by simp only [State.crcDinByte, hregs .crcDin (.tail _ (.head _))]
    rw [commandEffect, commandEffect, hcrc, hdin]
  case crcBuf =>
    have hcrc : s'.crcValue = s.crcValue := by simp only [State.crcValue, hregs .crc (.head _)]
    have hlen : s'.crcLenCount = s.crcLenCount := by simp only [State.crcLenCount, hregs .crcLen (.tail _ (.head _))]
    have hpayload := bytesAt_congr_buffer (hbytes .payload (.head _)) 0 s.crcLenCount
    rw [commandEffect, commandEffect, hparams, hcrc, hlen, hpayload]
  case frmBuild =>
    have hcmd : s'.frmCmdByte = s.frmCmdByte := by simp only [State.frmCmdByte, hregs .frmCmd (.head _)]
    have haddr : s'.frmAddrHalf = s.frmAddrHalf := by
      simp only [State.frmAddrHalf, hregs .frmAddr (.tail _ (.head _))]
    have hlen : s'.frmLenCount = s.frmLenCount := by
      simp only [State.frmLenCount, hregs .frmLen (.tail _ (.tail _ (.head _)))]
    have hpayload : s'.framePayload = s.framePayload := by
      rw [State.framePayload, hlen, bytesAt_congr_buffer (hbytes .payload (.head _)), State.framePayload]
    rw [commandEffect, commandEffect, hparams, hcmd, haddr, hlen, hpayload]
  case frmParse =>
    have hcount : s'.rxCountCount = s.rxCountCount := by simp only [State.rxCountCount, hregs .rxCount (.head _)]
    have hrx := hbytes .rx (.head _)
    rw [commandEffect, commandEffect, hparams, hcount, hrx, parsedRegs_congr hcount hrx]
  case pixConv ord =>
    have hrgb := hregs .pixRgb (.head _)
    simp only [commandEffect, State.pixRed, State.pixGreen, State.pixBlue, hrgb]
  case pixBuf ord ifmt =>
    have hcount : s'.pixinCountCount = s.pixinCountCount := by
      simp only [State.pixinCountCount, hregs .pixinCount (.head _)]
    have hpixin := convertedBytes_congr hparams (hbytes .pixin (.head _)) ord ifmt
    rw [commandEffect, commandEffect, hparams, hcount, hpixin]
  case busRead => rfl
  case busWrite => rfl

theorem exec_of_sameInputs {s' : State} (hi : i.isCommand = true) (h : SameInputs i s s') :
    exec i s' = .next ((commandEffect i s).apply s') := by
  rw [exec_command hi, commandEffect_congr h]

/-- STATUS is nobody's operand and nobody's result (40_command.md R84, R87). -/
theorem status_not_mem (i : Instr) : RegName.status ∉ i.operandRegs ∧ RegName.status ∉ i.resultRegs := by
  cases i <;> simp [Instr.operandRegs, Instr.resultRegs]

end

end Sys2Proof.Machine
end

section
/-! PROOF. What holds of every command (O7, O8, O18, O19, O21, O22, O23), from the effect it computes. -/

namespace Sys2Proof.Machine

section
variable {s t : State} {r : RegName} {b : Buffer} {i : Instr} {w : Word}

/-! ### Running a command twice -/

/-- CRC is the only register that a command both reads and writes (40_command.md R87). -/
theorem not_mem_writeSet_of_operand (hbyte : i ≠ .crcByte) (hbuf : i ≠ .crcBuf) (hr : r ∈ i.operandRegs) :
    r ∉ .status :: i.resultRegs := by
  revert r
  cases i
  case crcByte => exact absurd rfl hbyte
  case crcBuf => exact absurd rfl hbuf
  all_goals simp [Instr.operandRegs, Instr.resultRegs]

theorem windowReadOnly_of_inputBuffer (h : b ∈ i.inputBuffers) : windowReadOnly b = false := by
  revert b
  cases i <;> simp [Instr.inputBuffers, windowReadOnly]

/-- A command that does not both read and write CRC leaves its own inputs alone. -/
theorem sameInputs_exec (hi : i.isCommand = true) (hbyte : i ≠ .crcByte) (hbuf : i ≠ .crcBuf)
    (ht : exec i s = .next t) : SameInputs i s t where
  params := (sameWorld_exec_command hi ht).1
  regs r hr := sameRegsBut_exec_command hi ht r (not_mem_writeSet_of_operand hbyte hbuf hr)
  bytes b hb k := by
    have hrw := windowReadOnly_of_inputBuffer hb
    exact byteAt_exec_of_not_commandStores hi ht fun h => by simp [windowReadOnly_of_commandStores h] at hrw

/-- The state after a CRC command that fed `bs` (41_crc.md R95, R97). -/
def fedCrc (bs : List Byte) (s : State) : State :=
  succeed (s.setReg .crc ((crcFrom s.crcValue bs).setWidth 32))

theorem exec_crcByte_eq_fedCrc (s : State) : exec .crcByte s = .next (fedCrc [s.crcDinByte] s) := rfl

theorem exec_crcBuf_eq_fedCrc (h : s.crcLenCount ≤ s.params.maxPayload) :
    exec .crcBuf s = .next (fedCrc (s.bytesAt .payload 0 s.crcLenCount) s) := by
  rcases runCrcBuf_cases s with ⟨hlong, -⟩ | ⟨-, e⟩
  · exact absurd h (not_le.2 hlong)
  · rw [exec_crcBuf, e, fedCrc]

theorem crcValue_fedCrc (bs : List Byte) (s : State) : (fedCrc bs s).crcValue = crcFrom s.crcValue bs := by
  have hreg : (fedCrc bs s).reg .crc = (crcFrom s.crcValue bs).setWidth 32 := by simp [fedCrc, reg_succeed]
  rw [State.crcValue, hreg]
  exact BitVec.setWidth_setWidth_of_le (crcFrom s.crcValue bs) (show 16 ≤ 32 by decide)

/-- The second feed continues from the first, and STATUS is 0 already. -/
theorem fedCrc_fedCrc (bs cs : List Byte) (s : State) :
    fedCrc cs (fedCrc bs s) = (fedCrc bs s).setReg .crc ((crcFrom s.crcValue (bs ++ cs)).setWidth 32) := by
  have hfeed : crcFrom (fedCrc bs s).crcValue cs = crcFrom s.crcValue (bs ++ cs) := by
    rw [crcValue_fedCrc, crcFrom, crcFrom, crcFrom, List.foldl_append]
  rw [fedCrc, hfeed]
  rfl

/-! ### The CMD write -/

/-- A write to CMD of another size is refused (20_memory.md R54). -/
theorem exec_cmdWrite_of_other_size {size : AccessSize} (hsize : size ≠ .word) (s : State) (w : Word) :
    exec (.busWrite size 0x00000#20 w) s = .next (s.respond ⟨0#32, .buserr⟩) := by
  have h : busTarget s.params size (0x00000#20).toNat = none :=
    (busTarget_registerOffset s.params size .cmd).trans (if_neg hsize)
  rw [exec_busWrite, runBusWrite_of_none s h]

theorem exec_illegal (h : ∀ row ∈ opcodeMap, w &&& row.mask ≠ row.pattern) (s : State) :
    exec (.busWrite .word 0x00000#20 w) s =
      .next (((s.setReg .cmd w).setReg .status 0x00000001#32).respond ⟨0#32, .okay⟩) := by
  obtain ⟨-, hillegal, -⟩ := illegalWordOnlySetsErr w s
  exact hillegal h

end

/-- Settles O7: the CMD write stores and runs what the word's row stands for; no other size names CMD. -/
theorem cmdWriteStoresThenRunsOneCommand : Obligations.CmdWriteStoresThenRunsOneCommand := by
  intro s w rest
  refine ⟨fun hp => ⟨fun row hrow h => ?_, fun hno => ?_⟩, fun size hsize => exec_cmdWrite_of_other_size hsize s w⟩
  · have hd := decodeCommand_of_match hrow h
    exact ⟨_, executeCommand_of_decode _ hd (isCommand_of_decode hd), step_cmdWrite hp⟩
  · obtain ⟨e, hd⟩ := error_iff_no_match.2 hno
    exact (step_cmdWrite hp).trans (by rw [executeCommand_of_error _ hd])

/-- Settles O18: an effect writes the listed registers, and TX and PIXOUT are the only windows that a command stores
to. -/
theorem commandsWriteOnlyTheirWriteSets : Obligations.CommandsWriteOnlyTheirWriteSets := by
  refine ⟨fun i s hi => ?_, fun w s hno => ⟨_, exec_illegal hno s, fun r hr => ?_, fun _ _ => rfl⟩⟩
  · have ht := exec_command hi s
    have hregs := sameRegsBut_exec_command hi ht
    refine ⟨_, ht, hregs, fun b k hk => byteAt_exec_of_not_commandStores hi ht hk, sameWorld_exec_command hi ht,
      fun r hr => hregs r fun h => hr (writeSet_subset_readOnlyRegs i h), fun b k htx hpix =>
        byteAt_exec_of_not_commandStores hi ht fun h => ?_⟩
    rcases commandStores_cases h with ⟨-, hb, -⟩ | ⟨-, -, -, hb, -⟩
    · exact htx hb
    · exact hpix hb
  · simp only [List.mem_cons, List.not_mem_nil, or_false, not_or] at hr
    obtain ⟨hcmd, hstatus⟩ := hr
    rw [State.reg_respond, State.reg_setReg_ne _ _ _ hstatus, State.reg_setReg_ne _ _ _ hcmd]

/-- Settles O19: an effect with a code other than 0 writes STATUS alone. -/
theorem failedCommandChangesOnlyStatus : Obligations.FailedCommandChangesOnlyStatus := by
  refine ⟨fun i s hi => ⟨_, exec_command hi s, fun herr => ?_⟩, fun w s hno =>
    ⟨_, exec_illegal hno s, ?_, by rw [State.reg_setReg_same]⟩⟩
  · obtain ⟨e, hf⟩ := onlyStatus_of_err_ne_zero hi herr
    rw [hf, Effect.apply_onlyStatus, State.reg_setReg_same]
  · rw [State.err, State.reg_setReg_same]
    decide

/-- Settles O21: the effect is the same in every state with the same inputs; applied to another state it overwrites
what it writes and keeps the rest. -/
theorem commandsDependOnlyOnTheirOperands : Obligations.CommandsDependOnlyOnTheirOperands := by
  refine ⟨fun i s hi => ?_, fun w s hno => exec_illegal hno s⟩
  obtain ⟨hoperand, hresult⟩ := status_not_mem i
  refine ⟨_, exec_command hi s, fun v => ?_, fun r v hr hres herr => ?_, fun r v hr hres herr => ?_,
    fun r v hr hres hstatus => ?_, fun s' hparams hregs hbytes => ?_⟩
  · rw [exec_of_sameInputs hi (.setReg s v hoperand), Effect.apply_setReg_of_mem (Effect.mem_writes.2 (.inr rfl))]
  · have hmem := (succeeds_of_err_eq_zero hi herr).mem_writes hres
    rw [exec_of_sameInputs hi (.setReg s v hr), Effect.apply_setReg_of_mem hmem]
  · have hne : r ≠ .status := ne_of_mem_of_not_mem hres hresult
    obtain ⟨e, hf⟩ := onlyStatus_of_err_ne_zero hi herr
    rw [exec_of_sameInputs hi (.setReg s v hr), hf, Effect.apply_onlyStatus, State.setReg_comm hne,
      Effect.apply_onlyStatus]
  · have hnot : r ∉ (commandEffect i s).writes.map Prod.fst := fun h => by
      simpa [hstatus, hres] using mem_writes_commandEffect hi h
    rw [exec_of_sameInputs hi (.setReg s v hr), Effect.apply_setReg_of_not_mem hnot]
  · refine ⟨_, exec_of_sameInputs hi ⟨hparams, hregs, hbytes⟩, ?_, fun herr => ?_⟩
    · rw [Effect.status_apply, Effect.status_apply]
    · have hf := succeeds_of_err_eq_zero hi herr
      refine ⟨fun r hr => Effect.reg_apply_of_mem (hf.mem_writes hr), fun b k hk => ?_⟩
      obtain ⟨bs, hbs, hlt⟩ := hf.bytes b k hk
      rw [Effect.byteAt_apply_of_stored hbs hlt, Effect.byteAt_apply_of_stored hbs hlt]

/-- Settles O22: a command that leaves its inputs alone has the same effect twice; the CRC commands read the CRC they
wrote and continue from it. -/
theorem repeatedCommands : Obligations.RepeatedCommands := by
  refine ⟨fun i s hi hbyte hbuf => ?_, fun s => ⟨_, exec_crcByte_eq_fedCrc s, ?_⟩, fun s hlen =>
    ⟨_, exec_crcBuf_eq_fedCrc hlen, ?_⟩, fun w s hd => ?_⟩
  · have ht := exec_command hi s
    exact ⟨_, ht, by rw [exec_of_sameInputs hi (sameInputs_exec hi hbyte hbuf ht), Effect.apply_apply]⟩
  · exact congrArg Host.Outcome.next (fedCrc_fedCrc [s.crcDinByte] [s.crcDinByte] s)
  · have hagain := exec_crcBuf_eq_fedCrc (s := fedCrc (s.bytesAt .payload 0 s.crcLenCount) s) hlen
    exact hagain.trans (congrArg Host.Outcome.next (fedCrc_fedCrc _ _ s))
  · have hno := error_iff_no_match.1 hd
    exact ⟨_, exec_illegal hno s, exec_illegal hno _⟩

/-- Settles O8: every arm of exec and every kind of event answers a next state. -/
theorem everyStepAnswersNext : Obligations.EveryStepAnswersNext := by
  refine ⟨fun i s => by cases i <;> exact ⟨_, rfl⟩, fun s => ?_⟩
  cases hp : s.pending with
  | nil => exact ⟨s, idleBlockKeepsItsState s hp⟩
  | cons e rest =>
    obtain ⟨t, ht, -⟩ := stepConsumesOneEventInOrder s e rest hp
    exact ⟨t, ht⟩

/-- Settles O23: the word of NOP is the encoding of NOP, and its run is one write of STATUS. -/
theorem nopOnlyClearsStatus : Obligations.NopOnlyClearsStatus := by
  refine ⟨fun w => ⟨fun h => ?_, ?_⟩, fun s => rfl⟩
  · exact (CodeWord.cmd.inj (encode_of_decodeCommand h)).symm
  · rintro rfl
    rfl

end Sys2Proof.Machine
end

section
/-! PROOF. The arithmetic of the CRC (O27, O29, O31). One shift doubles the polynomial and, when bit 15 falls out, adds
the generator; that a shift is linear, is a step on numbers, and keeps a remainder carries over to `crcShifts`, then
to `crcStep`, then to the fold over the bytes. -/

namespace Sys2Proof.Machine

section
variable {c d : Half} {m : Nat} {bs cs : List Byte}

/-! ### The shift on numbers -/

theorem crcShift_eq_ite (c : Half) :
    crcShift c = if 2 ^ 15 ≤ c.toNat then (c <<< 1) ^^^ 0x1021#16 else c <<< 1 := by
  have hmsb : c.getLsbD 15 = decide (2 ^ 15 ≤ c.toNat) :=
    (BitVec.msb_eq_getLsbD_last c).symm.trans (BitVec.msb_eq_decide c)
  simp only [crcShift, hmsb, decide_eq_true_eq]

/-- One shift of the shift register, on numbers (41_crc.md R93, R98). -/
def crcShiftNat (x : Nat) : Nat := if 2 ^ 15 ≤ x then (2 * x % 2 ^ 16) ^^^ 0x1021 else 2 * x

theorem toNat_shiftLeft_one (c : Half) : (c <<< 1).toNat = 2 * c.toNat % 2 ^ 16 := by
  rw [BitVec.toNat_shiftLeft, Nat.shiftLeft_eq, pow_one, Nat.mul_comm]

theorem toNat_crcShift (c : Half) : (crcShift c).toNat = crcShiftNat c.toNat := by
  rw [crcShift_eq_ite, crcShiftNat]
  split
  · rw [BitVec.toNat_xor, toNat_shiftLeft_one]
    rfl
  · rw [toNat_shiftLeft_one]
    omega

theorem toNat_crcShifts (n : Nat) (c : Half) : (crcShifts n c).toNat = crcShiftNat^[n] c.toNat := by
  induction n generalizing c with
  | zero => rfl
  | succ n ih => rw [crcShifts, ih, toNat_crcShift, Function.iterate_succ_apply]

/-- The byte enters at bits 15..8 (41_crc.md R93). -/
theorem toNat_enteringByte (b : Byte) : (b.setWidth 16 <<< 8).toNat = b.toNat * 2 ^ 8 := by
  rw [BitVec.toNat_shiftLeft, BitVec.toNat_setWidth, Nat.shiftLeft_eq]
  omega

/-! ### The fold -/

theorem crcFrom_append (c : Half) (bs cs : List Byte) : crcFrom c (bs ++ cs) = crcFrom (crcFrom c bs) cs :=
  List.foldl_append

theorem crc16_concat (bs : List Byte) (b : Byte) : crc16 (bs ++ [b]) = crcStep (crc16 bs) b :=
  crcFrom_append 0#16 bs [b]

/-! ### Linearity -/

theorem crcShift_eq_xor (c : Half) :
    crcShift c = (c <<< 1) ^^^ (if c.getLsbD 15 then 0x1021#16 else 0#16) := by
  rw [crcShift]
  split
  · rfl
  · rw [BitVec.xor_zero]

theorem crcShift_xor (c d : Half) : crcShift (c ^^^ d) = crcShift c ^^^ crcShift d := by
  have hbit (x y : Bool) : (if (x ^^ y) = true then 0x1021#16 else 0#16) =
      (if x then 0x1021#16 else 0#16) ^^^ (if y then 0x1021#16 else 0#16) := by
    cases x <;> cases y <;> decide
  rw [crcShift_eq_xor, crcShift_eq_xor, crcShift_eq_xor, BitVec.getLsbD_xor, hbit, BitVec.shiftLeft_xor_distrib]
  ac_rfl

theorem crcShifts_xor (n : Nat) (c d : Half) : crcShifts n (c ^^^ d) = crcShifts n c ^^^ crcShifts n d := by
  induction n generalizing c d with
  | zero => rfl
  | succ n ih => rw [crcShifts, crcShift_xor, ih, crcShifts, crcShifts]

theorem crcStep_xor (c d : Half) (b e : Byte) : crcStep (c ^^^ d) (b ^^^ e) = crcStep c b ^^^ crcStep d e := by
  have hinput : (c ^^^ d) ^^^ ((b ^^^ e).setWidth 16 <<< 8) =
      (c ^^^ (b.setWidth 16 <<< 8)) ^^^ (d ^^^ (e.setWidth 16 <<< 8)) := by
    rw [BitVec.setWidth_xor, BitVec.shiftLeft_xor_distrib]
    ac_rfl
  rw [crcStep, hinput, crcShifts_xor, crcStep, crcStep]

theorem crcFrom_zipWith_xor (h : bs.length = cs.length) :
    crcFrom (c ^^^ d) (List.zipWith (fun x y => x ^^^ y) bs cs) = crcFrom c bs ^^^ crcFrom d cs := by
  induction bs generalizing c d cs with
  | nil =>
    obtain rfl := List.eq_nil_of_length_eq_zero h.symm
    rfl
  | cons b bs ih =>
    obtain ⟨e, cs, rfl⟩ := List.exists_cons_of_length_eq_add_one h.symm
    have hstep := ih (c := crcStep c b) (d := crcStep d e) (Nat.succ.inj h)
    rw [← crcStep_xor] at hstep
    exact hstep

/-! ### The remainder -/

theorem two_pow_mul_add_eq_xor (a : Nat) {x i : Nat} (h : x < 2 ^ i) : 2 ^ i * a + x = (2 ^ i * a) ^^^ x := by
  refine Nat.eq_of_testBit_eq fun j => ?_
  rw [Nat.testBit_two_pow_mul_add a h, Nat.testBit_xor, Nat.testBit_two_pow_mul]
  by_cases hj : j < i
  · simp [hj, Nat.not_le.2 hj]
  · have hx : x.testBit j = false := Nat.testBit_lt_two_pow (h.trans_le (Nat.pow_le_pow_right two_pos (by omega)))
    simp [hj, hx, Nat.not_lt.1 hj]

/-- The polynomial `m` over GF(2) is a multiple of the generator plus `c` (41_crc.md R92). -/
def LeavesRemainder (m : Nat) (c : Half) : Prop := ∃ q : List Bool, m = polyProduct q 0x11021 ^^^ c.toNat

theorem polyProduct_concat (q : List Bool) (x : Bool) (g : Nat) :
    polyProduct (q ++ [x]) g = (2 * polyProduct q g) ^^^ (if x then g else 0) := by
  rw [polyProduct, List.foldl_concat, polyProduct]

theorem messagePoly_concat (bs : List Byte) (b : Byte) :
    messagePoly (bs ++ [b]) = messagePoly bs <<< 8 ^^^ b.toNat := by
  calc messagePoly (bs ++ [b]) = messagePoly bs * 2 ^ 8 + b.toNat := List.foldl_concat _ _ _ _
    _ = messagePoly bs <<< 8 ^^^ b.toNat := by
      rw [Nat.mul_comm, two_pow_mul_add_eq_xor _ b.isLt, Nat.mul_comm, Nat.shiftLeft_eq]

/-- Bit 15 is the coefficient of the generator that a shift takes away. -/
theorem two_mul_eq_xor_crcShift (c : Half) :
    2 * c.toNat = (if 2 ^ 15 ≤ c.toNat then 0x11021 else 0) ^^^ (crcShift c).toNat := by
  rw [toNat_crcShift, crcShiftNat]
  split
  · have hlow : 2 * c.toNat % 2 ^ 16 < 2 ^ 16 := Nat.mod_lt _ (by decide)
    calc 2 * c.toNat = 2 ^ 16 * 1 + 2 * c.toNat % 2 ^ 16 := by omega
      _ = (0x11021 ^^^ 0x1021) ^^^ (2 * c.toNat % 2 ^ 16) := two_pow_mul_add_eq_xor 1 hlow
      _ = _ := by rw [Nat.xor_assoc, Nat.xor_comm 0x1021]
  · rw [Nat.zero_xor]

theorem LeavesRemainder.crcShift (h : LeavesRemainder m c) : LeavesRemainder (m <<< 1) (crcShift c) := by
  obtain ⟨q, rfl⟩ := h
  refine ⟨q ++ [decide (2 ^ 15 ≤ c.toNat)], ?_⟩
  simp only [polyProduct_concat, decide_eq_true_eq, Nat.xor_assoc]
  rw [← two_mul_eq_xor_crcShift, Nat.shiftLeft_xor_distrib, Nat.shiftLeft_eq, Nat.shiftLeft_eq, pow_one,
    Nat.mul_comm _ 2, Nat.mul_comm _ 2]

theorem LeavesRemainder.crcShifts (h : LeavesRemainder m c) (n : Nat) :
    LeavesRemainder (m <<< n) (crcShifts n c) := by
  induction n generalizing m c with
  | zero => exact h
  | succ n ih =>
    rw [Nat.add_comm, Nat.shiftLeft_add, Nat.add_comm]
    exact ih h.crcShift

theorem LeavesRemainder.xor (h : LeavesRemainder m c) (d : Half) : LeavesRemainder (m ^^^ d.toNat) (c ^^^ d) := by
  obtain ⟨q, rfl⟩ := h
  exact ⟨q, by rw [BitVec.toNat_xor, Nat.xor_assoc]⟩

theorem leavesRemainder_crc16 (bs : List Byte) : LeavesRemainder (messagePoly bs <<< 16) (crc16 bs) := by
  induction bs using List.reverseRecOn with
  | nil => exact ⟨[], rfl⟩
  | append_singleton bs b ih =>
    have hshift : messagePoly (bs ++ [b]) <<< 16 = (messagePoly bs <<< 16 ^^^ (b.setWidth 16 <<< 8).toNat) <<< 8 := by
      rw [messagePoly_concat, toNat_enteringByte, ← Nat.shiftLeft_eq, Nat.shiftLeft_xor_distrib,
        Nat.shiftLeft_xor_distrib, ← Nat.shiftLeft_add, ← Nat.shiftLeft_add, ← Nat.shiftLeft_add]
    rw [crc16_concat, hshift]
    exact (ih.xor _).crcShifts 8

end

/-- Settles O31: every shift, and every byte that enters, keeps the CRC the remainder of what has been fed. -/
theorem crcIsTheRemainderByTheGenerator : Obligations.CrcIsTheRemainderByTheGenerator := by
  intro bs
  rw [← Nat.shiftLeft_eq]
  exact leavesRemainder_crc16 bs

/-- Settles O27: the eight shifts on numbers, and the fold by its last byte; the golden vector is evaluated. -/
theorem crcStepIsTheShiftRegister : Obligations.CrcStepIsTheShiftRegister := by
  refine ⟨fun c b => ?_, rfl, crc16_concat, by simp [crc16, crcFrom, crcStep, crcShifts, crcShift]⟩
  rw [crcStep, toNat_crcShifts, BitVec.toNat_xor, toNat_enteringByte]
  rfl

/-- Settles O29: a shift is linear, and so are the step and the fold. -/
theorem crcIsLinear : Obligations.CrcIsLinear := by
  refine ⟨toNat_crcShift, crcStep_xor, fun bs cs h => ?_⟩
  have hlinear := crcFrom_zipWith_xor (c := 0#16) (d := 0#16) h
  rwa [BitVec.xor_self] at hlinear

end Sys2Proof.Machine
end

section
/-! PROOF. The CRC of a sequence that ends with its own CRC (O30). The high byte cancels the upper half of the register
and moves the lower half up, where the low byte cancels it. -/

namespace Sys2Proof.Machine

section
variable {c : Half} {n : Nat} {s : State}

/-- No bit reaches bit 15 before the last shift, so the generator is never added. -/
theorem crcShifts_of_lt (h : c.toNat * 2 ^ n < 2 ^ 16) : crcShifts n c = c <<< n := by
  induction n generalizing c with
  | zero => rw [crcShifts, BitVec.shiftLeft_zero]
  | succ n ih =>
    have hpos : 1 ≤ 2 ^ n := Nat.one_le_two_pow
    have hdouble : 2 * c.toNat * 2 ^ n < 2 ^ 16 := by rwa [pow_succ', ← Nat.mul_assoc, Nat.mul_comm _ 2] at h
    have hlow : 2 * c.toNat < 2 ^ 16 := (Nat.le_mul_of_pos_right _ hpos).trans_lt hdouble
    have hshift : crcShift c = c <<< 1 := by rw [crcShift_eq_ite, if_neg (by omega)]
    rw [crcShifts, hshift, ih (by rwa [toNat_shiftLeft_one, Nat.mod_eq_of_lt hlow]), ← BitVec.shiftLeft_add,
      Nat.add_comm]

theorem xor_highByte (c : Half) : c ^^^ ((highByte c).setWidth 16 <<< 8) = (lowByte c).setWidth 16 := by
  ext i hi
  by_cases h : i < 8
  · simp [highByte, lowByte, h, hi, BitVec.getLsbD_eq_getElem]
  · simp [highByte, lowByte, h, show 8 + (i - 8) = i by omega, show i - 8 < 8 by omega, hi,
      BitVec.getLsbD_eq_getElem]

theorem crcStep_highByte (c : Half) : crcStep c (highByte c) = (lowByte c).setWidth 16 <<< 8 := by
  rw [crcStep, xor_highByte, crcShifts_of_lt]
  rw [BitVec.toNat_setWidth]
  omega

theorem crcStep_enteringByte (b : Byte) : crcStep (b.setWidth 16 <<< 8) b = 0#16 := by
  rw [crcStep, BitVec.xor_self]
  rfl

theorem crc16_append_crc16 (bs : List Byte) : crc16 (bs ++ [highByte (crc16 bs), lowByte (crc16 bs)]) = 0#16 := by
  calc crc16 (bs ++ [highByte (crc16 bs), lowByte (crc16 bs)])
      = crcStep (crcStep (crc16 bs) (highByte (crc16 bs))) (lowByte (crc16 bs)) := crcFrom_append _ _ _
    _ = 0#16 := by rw [crcStep_highByte, crcStep_enteringByte]

/-! ### The bytes of a built frame -/

theorem State.bytesAt_succ (s : State) (b : Buffer) (k n : Nat) :
    s.bytesAt b k (n + 1) = s.byteAt b k :: s.bytesAt b (k + 1) n := by
  simp [State.bytesAt, List.range_succ_eq_map, Nat.add_assoc, Nat.add_comm 1]

theorem frmLenCount_eq (s : State) : s.frmLenCount = (s.reg .frmLen).toNat % 2 ^ 16 := by
  rw [State.frmLenCount, BitVec.extractLsb'_toNat, Nat.shiftRight_zero]

/-- TX after FRM_BUILD holds the whole frame (42_frame.md R104). -/
theorem bytesAt_runFrmBuild (h : s.frmLenCount ≤ s.params.maxPayload) :
    (runFrmBuild s).bytesAt .tx 0 (s.frmLenCount + 8) = frameBytes s.frmCmdByte s.frmAddrHalf s.framePayload := by
  rcases runFrmBuild_cases s with ⟨hlong, -⟩ | ⟨-, e⟩
  · exact absurd h (not_le.2 hlong)
  · have hread := State.bytesAt_storeBytes_same s .tx 0 (frameBytes s.frmCmdByte s.frmAddrHalf s.framePayload)
    rw [length_frameBytes, length_framePayload] at hread
    rw [e]
    exact hread

/-- A built frame from byte 1 on: the covered bytes and their own CRC (42_frame.md R102, R103). -/
theorem bytesAt_one_runFrmBuild (h : s.frmLenCount ≤ s.params.maxPayload) :
    (runFrmBuild s).bytesAt .tx 1 (s.frmLenCount + 7) =
      frameCovered s.frmCmdByte s.frmAddrHalf s.framePayload ++
        [highByte (frameCrc s.frmCmdByte s.frmAddrHalf s.framePayload),
         lowByte (frameCrc s.frmCmdByte s.frmAddrHalf s.framePayload)] := by
  have hframe := bytesAt_runFrmBuild h
  rw [State.bytesAt_succ] at hframe
  exact (List.cons.inj hframe).2

end

/-- Settles O30: a built frame from byte 1 on is a sequence followed by its own CRC. -/
theorem crcResidueIsZero : Obligations.CrcResidueIsZero := by
  refine ⟨crc16_append_crc16, fun s n hn hlen => ⟨_, exec_frmBuild s, ?_⟩⟩
  obtain rfl : n = s.frmLenCount := hn.trans (frmLenCount_eq s).symm
  rw [bytesAt_one_runFrmBuild hlen]
  exact crc16_append_crc16 _

end Sys2Proof.Machine
end

section
/-! PROOF. The CRC commands (O24, O25, O26, O28) and what they share with the frame codec, which is nothing (O41). -/

namespace Sys2Proof.Machine

section
variable {s t u : State} {bs : List Byte} {r : RegName} {w w' : Word} {i : Instr}

/-- One word stands for an instruction: the word it encodes to (30_encoding.md R73). -/
theorem decodeCommand_eq_ok_iff_of_encode (h : encode i = .cmd w') : decodeCommand w = .ok i ↔ w = w' := by
  constructor
  · intro hd
    exact CodeWord.cmd.inj ((encode_of_decodeCommand hd).symm.trans h)
  · rintro rfl
    have hd := decode_encode i
    rwa [h] at hd

theorem crcLenCount_eq (s : State) : s.crcLenCount = (s.reg .crcLen).toNat % 2 ^ 16 := by
  rw [State.crcLenCount, BitVec.extractLsb'_toNat, Nat.shiftRight_zero]

theorem crcFrom_bytesAt (c : Half) (s : State) (b : Buffer) (n : Nat) :
    crcFrom c (s.bytesAt b 0 n) = (List.range n).foldl (fun c i => crcStep c (s.byteAt b i)) c := by
  simp only [crcFrom, State.bytesAt, List.foldl_map, Nat.zero_add]

/-! ### Feeding a sequence in pieces -/

/-- A command that feeds `cs` continues from the CRC that the host left alone (41_crc.md R96). -/
theorem crcFrom_crcValue_fedCrc (h : u.reg .crc = s.reg .crc) (cs bs : List Byte) :
    crcFrom (fedCrc cs u).crcValue bs = crcFrom s.crcValue (cs ++ bs) := by
  rw [crcValue_fedCrc, ← crcFrom_append, State.crcValue, h, State.crcValue]

theorem crcValue_of_crcFeed (h : CrcFeed s bs t) : t.crcValue = crcFrom s.crcValue bs := by
  induction h with
  | done s t h => rw [State.crcValue, h]; rfl
  | byte s u v t bs hcrc hv _ ih =>
    cases (exec_crcByte_eq_fedCrc u).symm.trans hv
    rw [ih, crcFrom_crcValue_fedCrc hcrc]; rfl
  | buf s u v t bs hcrc hlen hv _ ih =>
    cases (exec_crcBuf_eq_fedCrc hlen).symm.trans hv
    rw [ih, crcFrom_crcValue_fedCrc hcrc]

theorem crcValue_runCrcClear (s : State) : (runCrcClear s).crcValue = 0#16 := by
  have hreg : (runCrcClear s).reg .crc = 0#32 := by simp [runCrcClear, reg_succeed]
  rw [State.crcValue, hreg]
  rfl

/-! ### A register that a command neither reads nor writes -/

theorem not_mem_writes_of_not_mem_writeSet (hi : i.isCommand = true) (h : r ∉ .status :: i.resultRegs) :
    r ∉ (commandEffect i s).writes.map Prod.fst :=
  fun hmem => h (mem_writes_commandEffect hi hmem)

theorem exec_setReg_of_not_mem (hi : i.isCommand = true) (hread : r ∉ i.operandRegs)
    (hwrite : r ∉ .status :: i.resultRegs) (s : State) (v : Word) :
    exec i (s.setReg r v) = .next (((commandEffect i s).apply s).setReg r v) := by
  rw [exec_of_sameInputs hi (.setReg s v hread),
    Effect.apply_setReg_of_not_mem (not_mem_writes_of_not_mem_writeSet hi hwrite)]

end

/-- Settles O28: each piece continues the fold from the CRC that the piece before it left. -/
theorem crcIsIncremental : Obligations.CrcIsIncremental := by
  refine ⟨fun s u t bs hclear hfeed => ?_, fun bs cs => crcFrom_append 0#16 bs cs⟩
  cases (exec_crcClear s).symm.trans hclear
  have hfold := crcValue_of_crcFeed hfeed
  rwa [crcValue_runCrcClear] at hfold

/-- Settles O26: the two cases of CRC_BUF, with the fold over the bytes read one at a time. -/
theorem crcBufFeedsThePayload : Obligations.CrcBufFeedsThePayload := by
  refine ⟨fun w => decodeCommand_eq_ok_iff_of_encode rfl, fun s n hn => ?_⟩
  obtain rfl : n = s.crcLenCount := hn.trans (crcLenCount_eq s).symm
  rw [exec_crcBuf, ← crcFrom_bytesAt]
  rcases runCrcBuf_cases s with ⟨hlong, e⟩ | ⟨hfits, e⟩ <;> rw [e]
  · exact ⟨fun h => absurd h (not_le.2 hlong), fun _ => rfl⟩
  · exact ⟨fun _ => rfl, fun h => absurd h (not_lt.2 hfits)⟩

/-- Settles O41: the operands and results of the one unit are no operands and results of the other. -/
theorem crcUnitIsSeparateFromTheFrameCodec : Obligations.CrcUnitIsSeparateFromTheFrameCodec := by
  refine ⟨fun i s hi => ?_, fun i s hi => ?_⟩
  · obtain ⟨hcommand, hread, hwrite⟩ : i.isCommand = true ∧ RegName.crc ∉ i.operandRegs ∧
        RegName.crc ∉ .status :: i.resultRegs := by
      rcases hi with rfl | rfl <;> decide
    exact ⟨_, exec_command hcommand s,
      Effect.reg_apply_of_not_mem (not_mem_writes_of_not_mem_writeSet hcommand hwrite),
      exec_setReg_of_not_mem hcommand hread hwrite s⟩
  · have hcommand : i.isCommand = true := by rcases hi with rfl | rfl | rfl <;> rfl
    refine ⟨_, exec_command hcommand s, fun r v hr => ?_⟩
    obtain ⟨hread, hwrite⟩ : r ∉ i.operandRegs ∧ r ∉ .status :: i.resultRegs := by
      revert r
      rcases hi with rfl | rfl | rfl <;> decide
    exact ⟨Effect.reg_apply_of_not_mem (not_mem_writes_of_not_mem_writeSet hcommand hwrite),
      exec_setReg_of_not_mem hcommand hread hwrite s v⟩

/-- Settles O24: the word of CRC_CLEAR is its encoding, and its run is two register writes. -/
theorem crcClearZeroesTheAccumulator : Obligations.CrcClearZeroesTheAccumulator :=
  ⟨fun _ => decodeCommand_eq_ok_iff_of_encode rfl, exec_crcClear⟩

/-- Settles O25: the word of CRC_BYTE is its encoding, and its run is one step of the CRC. -/
theorem crcByteFeedsOneByte : Obligations.CrcByteFeedsOneByte :=
  ⟨fun _ => decodeCommand_eq_ok_iff_of_encode rfl, exec_crcByte⟩

end Sys2Proof.Machine
end

section
/-! PROOF. FRM_BUILD (O32, O33). A buffer that holds a frame holds each of its fields at its place (42_frame.md R102);
TX does so after FRM_BUILD, and RX does in the round trip. -/

namespace Sys2Proof.Machine

section
variable {s : State} {b : Buffer} {cmd : Byte} {addr : Half} {payload : List Byte}

/-! ### Big-endian pairs -/

theorem toNat_pair (h l : Byte) : (pair h l).toNat = h.toNat * 256 + l.toNat := by
  rw [pair, BitVec.toNat_append, ← Nat.shiftLeft_add_eq_or_of_lt l.isLt, Nat.shiftLeft_eq]

theorem pair_highByte_lowByte (h : Half) : pair (highByte h) (lowByte h) = h :=
  BitVec.extractLsb'_append_extractLsb'

theorem toNat_highByte_lowByte (h : Half) : (highByte h).toNat * 256 + (lowByte h).toNat = h.toNat := by
  rw [← toNat_pair, pair_highByte_lowByte]

theorem highByte_extractLsb' (w : Word) : highByte (w.extractLsb' 0 16) = w.extractLsb' 8 8 := by
  ext i hi
  simp [highByte]

theorem lowByte_extractLsb' (w : Word) : lowByte (w.extractLsb' 0 16) = w.extractLsb' 0 8 := by
  ext i hi
  simp [lowByte]

/-! ### A frame in a buffer -/

theorem State.bytesAt_add (s : State) (b : Buffer) (k m n : Nat) :
    s.bytesAt b k (m + n) = s.bytesAt b k m ++ s.bytesAt b (k + m) n := by
  simp [State.bytesAt, List.range_add, Nat.add_assoc]

/-- A buffer holds a frame from byte 0 on, field by field (42_frame.md R102). -/
structure HoldsFrame (s : State) (b : Buffer) (cmd : Byte) (addr : Half) (payload : List Byte) : Prop where
  marker : s.byteAt b 0 = frameMarker
  command : s.byteAt b 1 = cmd
  addrHigh : s.byteAt b 2 = highByte addr
  addrLow : s.byteAt b 3 = lowByte addr
  lenHigh : s.byteAt b 4 = highByte (BitVec.ofNat 16 payload.length)
  lenLow : s.byteAt b 5 = lowByte (BitVec.ofNat 16 payload.length)
  body : s.bytesAt b 6 payload.length = payload
  crcHigh : s.byteAt b (6 + payload.length) = highByte (frameCrc cmd addr payload)
  crcLow : s.byteAt b (7 + payload.length) = lowByte (frameCrc cmd addr payload)

/-- The first `n + 8` bytes of a buffer: the six header bytes, `n` bytes, and the last two. -/
theorem State.bytesAt_frame (s : State) (b : Buffer) (n : Nat) :
    s.bytesAt b 0 (n + 8) =
      s.byteAt b 0 :: s.byteAt b 1 :: s.byteAt b 2 :: s.byteAt b 3 :: s.byteAt b 4 :: s.byteAt b 5 ::
        (s.bytesAt b 6 n ++ [s.byteAt b (6 + n), s.byteAt b (7 + n)]) := by
  have hlast : s.bytesAt b (6 + n) 2 = [s.byteAt b (6 + n), s.byteAt b (7 + n)] := by
    rw [State.bytesAt_succ, State.bytesAt_succ, show 6 + n + 1 = 7 + n by omega]
    rfl
  rw [← hlast, ← State.bytesAt_add]
  simp only [State.bytesAt_succ]

theorem holdsFrame_of_bytesAt (h : s.bytesAt b 0 (payload.length + 8) = frameBytes cmd addr payload) :
    HoldsFrame s b cmd addr payload := by
  rw [State.bytesAt_frame] at h
  simp only [frameBytes, frameCovered, List.cons_append, List.nil_append, List.cons.injEq] at h
  obtain ⟨hmarker, hcommand, haddrHigh, haddrLow, hlenHigh, hlenLow, htail⟩ := h
  obtain ⟨hpayload, hcrc⟩ := List.append_inj htail (by simp)
  simp only [List.cons.injEq, and_true] at hcrc
  obtain ⟨hcrcHigh, hcrcLow⟩ := hcrc
  exact ⟨hmarker, hcommand, haddrHigh, haddrLow, hlenHigh, hlenLow, hpayload, hcrcHigh, hcrcLow⟩

/-- The covered bytes of the frame stand at 1 .. 5+L (42_frame.md R103). -/
theorem HoldsFrame.covered (h : HoldsFrame s b cmd addr payload) :
    s.bytesAt b 1 (5 + payload.length) = frameCovered cmd addr payload := by
  rw [State.bytesAt_add, h.body]
  simp only [State.bytesAt_succ, h.command, h.addrHigh, h.addrLow, h.lenHigh, h.lenLow]
  rfl

theorem HoldsFrame.byteAt_payload (h : HoldsFrame s b cmd addr payload) {i : Nat} (hi : i < payload.length) :
    s.byteAt b (6 + i) = payload.getD i 0 := by
  rw [← State.getD_bytesAt s b 6 payload.length hi, h.body]

/-! ### What FRM_BUILD leaves -/

theorem runFrmBuild_of_long (h : s.params.maxPayload < s.frmLenCount) : runFrmBuild s = raiseError .length s := by
  rcases runFrmBuild_cases s with ⟨-, e⟩ | ⟨hfits, -⟩
  · exact e
  · exact absurd hfits (not_le.2 h)

theorem runFrmBuild_of_fits (h : s.frmLenCount ≤ s.params.maxPayload) :
    runFrmBuild s = succeed ((s.storeBytes .tx 0 (frameBytes s.frmCmdByte s.frmAddrHalf s.framePayload)).setRegs
      [(.txCount, BitVec.ofNat 32 (s.frmLenCount + 8)),
       (.frmCrc, (frameCrc s.frmCmdByte s.frmAddrHalf s.framePayload).setWidth 32)]) := by
  rcases runFrmBuild_cases s with ⟨hlong, -⟩ | ⟨-, e⟩
  · exact absurd h (not_le.2 hlong)
  · exact e

theorem holdsFrame_runFrmBuild (h : s.frmLenCount ≤ s.params.maxPayload) :
    HoldsFrame (runFrmBuild s) .tx s.frmCmdByte s.frmAddrHalf s.framePayload :=
  holdsFrame_of_bytesAt (by rw [length_framePayload, bytesAt_runFrmBuild h])

theorem frmLenCount_lt (s : State) : s.frmLenCount < 2 ^ 16 := BitVec.isLt _

theorem txCount_runFrmBuild (h : s.frmLenCount ≤ s.params.maxPayload) :
    ((runFrmBuild s).reg .txCount).toNat = s.frmLenCount + 8 := by
  have hreg : (runFrmBuild s).reg .txCount = BitVec.ofNat 32 (s.frmLenCount + 8) := by rw [runFrmBuild_of_fits h]; rfl
  have := frmLenCount_lt s
  rw [hreg, BitVec.toNat_ofNat, Nat.mod_eq_of_lt (by omega)]

theorem frmCrc_runFrmBuild (h : s.frmLenCount ≤ s.params.maxPayload) :
    (runFrmBuild s).reg .frmCrc = (frameCrc s.frmCmdByte s.frmAddrHalf s.framePayload).setWidth 32 := by
  rw [runFrmBuild_of_fits h]; rfl

theorem status_runFrmBuild (h : s.frmLenCount ≤ s.params.maxPayload) : (runFrmBuild s).reg .status = 0#32 := by
  rw [runFrmBuild_of_fits h]; rfl

/-! ### The operands of FRM_BUILD, from the registers' bits -/

theorem ofNat_length_framePayload (s : State) :
    BitVec.ofNat 16 s.framePayload.length = (s.reg .frmLen).extractLsb' 0 16 := by
  rw [length_framePayload, State.frmLenCount, BitVec.ofNat_toNat, BitVec.setWidth_eq]

theorem frameCovered_operands (s : State) :
    frameCovered s.frmCmdByte s.frmAddrHalf s.framePayload =
      [(s.reg .frmCmd).extractLsb' 0 8, (s.reg .frmAddr).extractLsb' 8 8, (s.reg .frmAddr).extractLsb' 0 8,
        (s.reg .frmLen).extractLsb' 8 8, (s.reg .frmLen).extractLsb' 0 8] ++
      (List.range s.frmLenCount).map (fun i => s.byteAt .payload i) := by
  rw [frameCovered, ofNat_length_framePayload, State.frmAddrHalf, highByte_extractLsb', lowByte_extractLsb',
    highByte_extractLsb', lowByte_extractLsb', State.framePayload, State.bytesAt]
  simp only [Nat.zero_add]
  rfl

theorem getD_framePayload (s : State) {i : Nat} (hi : i < s.frmLenCount) :
    s.framePayload.getD i 0 = s.byteAt .payload i := by
  rw [State.framePayload, State.getD_bytesAt _ _ _ _ hi, Nat.zero_add]

end

/-- Settles O32: TX holds the frame of the operands, field by field. -/
theorem frmBuildWritesTheFrame : Obligations.FrmBuildWritesTheFrame := by
  refine ⟨fun w => decodeCommand_eq_ok_iff_of_encode rfl, fun s n k hn hk => ?_⟩
  obtain rfl : n = s.frmLenCount := hn.trans (frmLenCount_eq s).symm
  obtain rfl : k = frameCrc s.frmCmdByte s.frmAddrHalf s.framePayload := by
    rw [hk, frameCrc, frameCovered_operands]
  refine ⟨fun hfits => ⟨_, exec_frmBuild s, ?_⟩, fun hlong => by rw [exec_frmBuild, runFrmBuild_of_long hlong]; rfl⟩
  obtain ⟨hmarker, hcommand, haddrHigh, haddrLow, hlenHigh, hlenLow, -, hcrcHigh, hcrcLow⟩ :=
    holdsFrame_runFrmBuild hfits
  rw [State.frmAddrHalf, highByte_extractLsb'] at haddrHigh
  rw [State.frmAddrHalf, lowByte_extractLsb'] at haddrLow
  rw [ofNat_length_framePayload, highByte_extractLsb'] at hlenHigh
  rw [ofNat_length_framePayload, lowByte_extractLsb'] at hlenLow
  rw [length_framePayload] at hcrcHigh hcrcLow
  refine ⟨hmarker, hcommand, haddrHigh, haddrLow, hlenHigh, hlenLow, fun i hi => ?_, hcrcHigh, hcrcLow,
    txCount_runFrmBuild hfits, frmCrc_runFrmBuild hfits, status_runFrmBuild hfits, fun r hr => ?_,
    fun b j hj => ?_, sameWorld_exec_command rfl (exec_frmBuild s)⟩
  · rw [(holdsFrame_runFrmBuild hfits).byteAt_payload (by rwa [length_framePayload]), getD_framePayload s hi]
  · refine sameRegsBut_exec_command rfl (exec_frmBuild s) r fun h => hr ?_
    exact (List.perm_append_singleton RegName.status [.txCount, .frmCrc]).mem_iff.2 h
  · refine byteAt_exec_of_not_commandStores rfl (exec_frmBuild s) fun h => ?_
    obtain ⟨-, rfl, hlt⟩ | ⟨_, _, ⟨⟩, -⟩ := commandStores_cases h
    have hout := hj.resolve_left (· rfl)
    omega

/-- Settles O33: the fields of the frame in TX, and the residue of its own CRC. -/
theorem builtFrameInvariants : Obligations.BuiltFrameInvariants := by
  intro s n hn hfits
  obtain rfl : n = s.frmLenCount := hn.trans (frmLenCount_eq s).symm
  have hframe := holdsFrame_runFrmBuild hfits
  have hcovered := hframe.covered
  obtain ⟨hmarker, -, -, -, hlenHigh, hlenLow, -, hcrcHigh, hcrcLow⟩ := hframe
  rw [length_framePayload] at hlenHigh hlenLow hcrcHigh hcrcLow hcovered
  refine ⟨_, exec_frmBuild s, hmarker, ?_, txCount_runFrmBuild hfits, ?_, ?_, ?_⟩
  · rw [hlenHigh, hlenLow, toNat_highByte_lowByte, BitVec.toNat_ofNat, Nat.mod_eq_of_lt (frmLenCount_lt s)]
  · rw [hcrcHigh, hcrcLow, toNat_highByte_lowByte, frmCrc_runFrmBuild hfits,
      BitVec.toNat_setWidth_of_le (by decide)]
  · rw [frmCrc_runFrmBuild hfits, hcovered, frameCrc]
  · rw [txCount_runFrmBuild hfits, show s.frmLenCount + 8 - 1 = s.frmLenCount + 7 by omega,
      bytesAt_one_runFrmBuild hfits]
    exact crc16_append_crc16 _

end Sys2Proof.Machine
end

section
/-! PROOF. What FRM_PARSE reports (O34, O35, O36). The count and the marker decide how it ends; the results of a
success are the rule's own numbers, read off the bytes of RX (42_frame.md R107). -/

namespace Sys2Proof.Machine

section
variable {s : State}

/-! ### The operands and the flags, as numbers -/

theorem rxCountCount_eq (s : State) : s.rxCountCount = (s.reg .rxCount).toNat % 2 ^ 17 := by
  rw [State.rxCountCount, BitVec.extractLsb'_toNat, Nat.shiftRight_zero]

theorem toNat_declaredLen (s : State) :
    s.declaredLen.toNat = (s.byteAt .rx 4).toNat * 256 + (s.byteAt .rx 5).toNat := toNat_pair _ _

theorem parseTrunc_iff : s.parseTrunc = true ↔ s.rxCountCount < 6 + s.declaredLen.toNat := decide_eq_true_iff

theorem parsePresent_iff : s.parsePresent = true ↔ 8 + s.declaredLen.toNat ≤ s.rxCountCount := decide_eq_true_iff

theorem toNat_rxInfoWord (trunc present matched : Bool) :
    (rxInfoWord trunc present matched).toNat =
      (if matched then 4 else 0) + (if present then 2 else 0) + (if trunc then 1 else 0) := by
  revert trunc present matched; decide

/-! ### How FRM_PARSE ends -/

theorem runFrmParse_of_long (h : capacity s.params .rx < s.rxCountCount) : runFrmParse s = raiseError .length s := by
  rcases runFrmParse_cases s with ⟨-, e⟩ | ⟨hfits, -⟩ | ⟨hfits, -⟩
  · exact e
  · exact absurd hfits (not_le.2 h)
  · exact absurd hfits (not_le.2 h)

theorem runFrmParse_of_malformed (h : s.rxCountCount ≤ capacity s.params .rx)
    (hbad : s.rxCountCount < 6 ∨ s.byteAt .rx 0 ≠ frameMarker) : runFrmParse s = raiseError .malformedFrame s := by
  rcases runFrmParse_cases s with ⟨hlong, -⟩ | ⟨-, -, e⟩ | ⟨-, h6, hm, -⟩
  · exact absurd h (not_le.2 hlong)
  · exact e
  · exact absurd hbad (by simp [h6, hm])

theorem runFrmParse_of_marked (h : s.rxCountCount ≤ capacity s.params .rx) (h6 : 6 ≤ s.rxCountCount)
    (hm : s.byteAt .rx 0 = frameMarker) : runFrmParse s = succeed (writeParsed s) := by
  rcases runFrmParse_cases s with ⟨hlong, -⟩ | ⟨-, hbad, -⟩ | ⟨-, -, -, e⟩
  · exact absurd h (not_le.2 hlong)
  · exact absurd hbad (by simp [h6, hm])
  · exact e

theorem err_succeed (s : State) : (succeed s).err = 0#4 := by
  rw [State.err, reg_succeed, if_pos rfl]; rfl

theorem err_raiseError (e : ErrorCode) (s : State) : (raiseError e s).err = e.number := by
  rw [State.err, reg_raiseError, if_pos rfl]
  cases e <;> rfl

/-! ### The registers after a successful parse -/

section
variable (s)

@[simp] theorem rxCmd_parsed : (succeed (writeParsed s)).reg .rxCmd = (s.byteAt .rx 1).setWidth 32 :=
  reg_writeParsed s .rxCmd
@[simp] theorem rxAddr_parsed :
    (succeed (writeParsed s)).reg .rxAddr = (pair (s.byteAt .rx 2) (s.byteAt .rx 3)).setWidth 32 :=
  reg_writeParsed s .rxAddr
@[simp] theorem rxLen_parsed : (succeed (writeParsed s)).reg .rxLen = s.declaredLen.setWidth 32 :=
  reg_writeParsed s .rxLen
@[simp] theorem rxPlen_parsed : (succeed (writeParsed s)).reg .rxPlen = BitVec.ofNat 32 s.parsePlen :=
  reg_writeParsed s .rxPlen
@[simp] theorem rxCrc_parsed : (succeed (writeParsed s)).reg .rxCrc = s.parseRcrc.setWidth 32 :=
  reg_writeParsed s .rxCrc
@[simp] theorem rxCrcCalc_parsed : (succeed (writeParsed s)).reg .rxCrcCalc = s.parseCalc.setWidth 32 :=
  reg_writeParsed s .rxCrcCalc
@[simp] theorem rxInfo_parsed :
    (succeed (writeParsed s)).reg .rxInfo = rxInfoWord s.parseTrunc s.parsePresent s.parseMatch :=
  reg_writeParsed s .rxInfo

theorem toNat_rxAddr_parsed : ((succeed (writeParsed s)).reg .rxAddr).toNat =
    (s.byteAt .rx 2).toNat * 256 + (s.byteAt .rx 3).toNat := by
  rw [rxAddr_parsed, BitVec.toNat_setWidth_of_le (by decide), toNat_pair]

theorem toNat_rxLen_parsed : ((succeed (writeParsed s)).reg .rxLen).toNat = s.declaredLen.toNat := by
  rw [rxLen_parsed, BitVec.toNat_setWidth_of_le (by decide)]

theorem toNat_rxPlen_parsed : ((succeed (writeParsed s)).reg .rxPlen).toNat = s.parsePlen := by
  rw [rxPlen_parsed, toNat_parsePlenWord]

theorem sameBytes_parsed : sameBytes s (succeed (writeParsed s)) := fun b k => by
  rw [byteAt_succeed, byteAt_writeParsed]

theorem info_parsed :
    (succeed (writeParsed s)).infoTrunc = s.parseTrunc ∧ (succeed (writeParsed s)).infoCrcPresent = s.parsePresent ∧
      (succeed (writeParsed s)).infoCrcMatch = s.parseMatch := by
  simpa only [State.infoTrunc, State.infoCrcPresent, State.infoCrcMatch, rxInfo_parsed] using rxInfoWord_bits _ _ _

end

/-! ### The results, by the rule's conditions -/

theorem parsePlen_eq (s : State) :
    s.parsePlen = if s.rxCountCount < 6 + s.declaredLen.toNat then s.rxCountCount - 6 else s.declaredLen.toNat := by
  simp only [State.parsePlen, parseTrunc_iff]

theorem parseRcrc_eq (s : State) :
    s.parseRcrc = if 8 + s.declaredLen.toNat ≤ s.rxCountCount then
      pair (s.byteAt .rx (6 + s.declaredLen.toNat)) (s.byteAt .rx (7 + s.declaredLen.toNat)) else 0#16 := by
  simp only [State.parseRcrc, parsePresent_iff]

theorem parseCalc_eq (s : State) :
    s.parseCalc = if s.rxCountCount < 6 + s.declaredLen.toNat then 0#16
      else crc16 (s.bytesAt .rx 1 (5 + s.declaredLen.toNat)) := by
  simp only [State.parseCalc, parseTrunc_iff]

/-- A frame whose payload is truncated has no CRC bytes either (42_frame.md R108). -/
theorem parse_of_truncated (h : s.rxCountCount < 6 + s.declaredLen.toNat) :
    s.parseTrunc = true ∧ s.parsePresent = false ∧ s.parseMatch = false ∧ s.parseRcrc = 0#16 ∧
      s.parseCalc = 0#16 := by
  have htrunc := parseTrunc_iff.2 h
  have hpresent := parsePresent_of_trunc htrunc
  exact ⟨htrunc, hpresent, by simp [State.parseMatch, frameCrcMatch, hpresent], by simp [State.parseRcrc, hpresent],
    by simp [State.parseCalc, htrunc]⟩

/-- A complete payload without both CRC bytes is not truncated, but its CRC is absent (42_frame.md R108). -/
theorem parse_of_crc_missing (h6 : 6 + s.declaredLen.toNat ≤ s.rxCountCount)
    (h8 : s.rxCountCount < 8 + s.declaredLen.toNat) :
    s.parseTrunc = false ∧ s.parsePresent = false ∧ s.parseRcrc = 0#16 ∧
      s.parseCalc = crc16 (s.bytesAt .rx 1 (5 + s.declaredLen.toNat)) :=
  ⟨decide_eq_false (not_lt.2 h6), decide_eq_false (not_le.2 h8), by rw [parseRcrc_eq, if_neg (not_le.2 h8)],
    by rw [parseCalc_eq, if_neg (not_lt.2 h6)]⟩

end

/-- Settles O34: how FRM_PARSE ends is a matter of the count and the marker; each result is the rule's own case
distinction on the count. -/
theorem frmParseReportsTheFrame : Obligations.FrmParseReportsTheFrame := by
  refine ⟨fun w => decodeCommand_eq_ok_iff_of_encode rfl, fun s m len rcrc ccalc hm hlen hrcrc hccalc => ?_⟩
  obtain rfl : m = s.rxCountCount := hm.trans (rxCountCount_eq s).symm
  obtain rfl : len = s.declaredLen.toNat := hlen.trans (toNat_declaredLen s).symm
  obtain rfl : rcrc = s.parseRcrc := hrcrc.trans (parseRcrc_eq s).symm
  obtain rfl : ccalc = s.parseCalc := hccalc.trans (parseCalc_eq s).symm
  rw [exec_frmParse]
  refine ⟨fun hfits h6 hmarker => ?_, fun hlong => ?_, fun hfits hbad => ?_⟩
  · have hrun := runFrmParse_of_marked hfits h6 hmarker
    have hframe := sameRegsBut_exec_command rfl (exec_frmParse s)
    have hworld := sameWorld_exec_command rfl (exec_frmParse s)
    rw [hrun] at hframe hworld ⊢
    refine ⟨_, rfl, rxCmd_parsed s, toNat_rxAddr_parsed s, toNat_rxLen_parsed s, ?_, rxCrc_parsed s,
      rxCrcCalc_parsed s, ?_, rfl, fun r hr => hframe r fun h => hr ?_, sameBytes_parsed s, hworld⟩
    · rw [toNat_rxPlen_parsed, parsePlen_eq]
    · simp only [rxInfo_parsed, toNat_rxInfoWord, parseMatch_iff, parsePresent_iff, parseTrunc_iff]
    · exact (List.perm_append_singleton RegName.status Instr.frmParse.resultRegs).mem_iff.2 h
  · rw [runFrmParse_of_long hlong]; rfl
  · rw [runFrmParse_of_malformed hfits hbad]; rfl

/-- Settles O35: the two ways FRM_PARSE ends at a legal count exclude each other, and so do their codes. -/
theorem malformedExactlyWhenShortOrUnmarked : Obligations.MalformedExactlyWhenShortOrUnmarked := by
  intro s m hm hfits
  obtain rfl : m = s.rxCountCount := hm.trans (rxCountCount_eq s).symm
  refine ⟨_, exec_frmParse s, ?_⟩
  rcases runFrmParse_cases s with ⟨hlong, -⟩ | ⟨-, hbad, e⟩ | ⟨-, h6, hmarker, e⟩
  · exact absurd hfits (not_le.2 hlong)
  · have hgood : ¬ (6 ≤ s.rxCountCount ∧ s.byteAt .rx 0 = 0xA5#8) := by
      rwa [not_and_or, not_le]
    rw [e, err_raiseError]
    exact ⟨iff_of_true rfl hbad, iff_of_false (by decide) hgood⟩
  · have hgood : ¬ (s.rxCountCount < 6 ∨ s.byteAt .rx 0 ≠ 0xA5#8) := by
      rw [not_or, not_lt, not_not]; exact ⟨h6, hmarker⟩
    rw [e, err_succeed]
    exact ⟨iff_of_false (by decide) hgood, iff_of_true rfl ⟨h6, hmarker⟩⟩

/-- Settles O36: a marked frame parses whatever is missing after its header. -/
theorem truncatedFramesParse : Obligations.TruncatedFramesParse := by
  intro s m len hm hlen hfits h6 hmarker
  obtain rfl : m = s.rxCountCount := hm.trans (rxCountCount_eq s).symm
  obtain rfl : len = s.declaredLen.toNat := hlen.trans (toNat_declaredLen s).symm
  refine ⟨_, exec_frmParse s, ?_⟩
  rw [runFrmParse_of_marked hfits h6 hmarker]
  refine ⟨err_succeed _, fun hshort => ?_, fun hbody hcrc => ?_⟩
  · obtain ⟨htrunc, hpresent, hmatch, hrcrc, hcalc⟩ := parse_of_truncated hshort
    rw [toNat_rxLen_parsed, toNat_rxPlen_parsed, parsePlen_eq, if_pos hshort, rxInfo_parsed, rxCrc_parsed,
      rxCrcCalc_parsed, htrunc, hpresent, hmatch, hrcrc, hcalc]
    exact ⟨rfl, rfl, rfl, rfl, rfl⟩
  · obtain ⟨htrunc, hpresent, hrcrc, hcalc⟩ := parse_of_crc_missing hbody hcrc
    obtain ⟨hinfoTrunc, hinfoPresent, -⟩ := info_parsed s
    rw [hinfoTrunc, hinfoPresent, rxCrc_parsed, rxCrcCalc_parsed, htrunc, hpresent, hrcrc, hcalc]
    exact ⟨rfl, rfl, rfl, rfl⟩

end Sys2Proof.Machine
end

section
/-! PROOF. What FRM_PARSE looks at (O37, O38, O39). Two states whose RX agrees on the header and whose counts reach
equally far into the frame have the same results, but for the two CRCs: each of these looks at the bytes it names, and
only when they are present (42_frame.md R107). -/

namespace Sys2Proof.Machine

section
variable {s s' : State}

/-! ### The same header -/

/-- The header of the second state's RX is the first's, and as much of the frame is there. -/
structure SameHeader (s s' : State) : Prop where
  header : ∀ j, j < 6 → s'.byteAt .rx j = s.byteAt .rx j
  trunc : s'.parseTrunc = s.parseTrunc
  present : s'.parsePresent = s.parsePresent
  plen : s'.parsePlen = s.parsePlen

theorem declaredLen_congr (h : ∀ j, j < 6 → s'.byteAt .rx j = s.byteAt .rx j) : s'.declaredLen = s.declaredLen := by
  rw [State.declaredLen, h 4 (by decide), h 5 (by decide), State.declaredLen]

theorem SameHeader.declaredLen (h : SameHeader s s') : s'.declaredLen = s.declaredLen := declaredLen_congr h.header

theorem SameHeader.of_count (hcount : s'.rxCountCount = s.rxCountCount)
    (h : ∀ j, j < 6 → s'.byteAt .rx j = s.byteAt .rx j) : SameHeader s s' where
  header := h
  trunc := by rw [State.parseTrunc, hcount, declaredLen_congr h, State.parseTrunc]
  present := by rw [State.parsePresent, hcount, declaredLen_congr h, State.parsePresent]
  plen := by rw [parsePlen_eq, hcount, declaredLen_congr h, parsePlen_eq]

/-- All that a count says of a complete frame is that it is complete (42_frame.md R109). -/
theorem parse_of_complete (h : 8 + s.declaredLen.toNat ≤ s.rxCountCount) :
    s.parseTrunc = false ∧ s.parsePresent = true ∧ s.parsePlen = s.declaredLen.toNat := by
  have hbody : ¬ s.rxCountCount < 6 + s.declaredLen.toNat := by omega
  exact ⟨decide_eq_false hbody, parsePresent_iff.2 h, by rw [parsePlen_eq, if_neg hbody]⟩

theorem SameHeader.of_complete (hcount : 8 + s.declaredLen.toNat ≤ s.rxCountCount)
    (hcount' : 8 + s.declaredLen.toNat ≤ s'.rxCountCount) (h : ∀ j, j < 6 → s'.byteAt .rx j = s.byteAt .rx j) :
    SameHeader s s' := by
  obtain ⟨htrunc, hpresent, hplen⟩ := parse_of_complete hcount
  rw [← declaredLen_congr h] at hcount'
  obtain ⟨htrunc', hpresent', hplen'⟩ := parse_of_complete hcount'
  exact ⟨h, by rw [htrunc, htrunc'], by rw [hpresent, hpresent'], by rw [hplen, hplen', declaredLen_congr h]⟩

/-! ### The two CRCs -/

/-- The computed CRC looks at the payload, and only when it is complete. -/
theorem SameHeader.parseCalc (h : SameHeader s s') (hpayload : s.parseTrunc = false →
    ∀ j, j < 6 + s.declaredLen.toNat → s'.byteAt .rx j = s.byteAt .rx j) : s'.parseCalc = s.parseCalc := by
  rw [State.parseCalc, State.parseCalc, h.trunc, h.declaredLen]
  cases htrunc : s.parseTrunc with
  | true => rfl
  | false =>
    have hcovered : s'.bytesAt .rx 1 (5 + s.declaredLen.toNat) = s.bytesAt .rx 1 (5 + s.declaredLen.toNat) :=
      State.bytesAt_congr fun j hj => hpayload htrunc (1 + j) (by omega)
    rw [hcovered]

/-- The received CRC looks at the two CRC bytes, and only when both are present. -/
theorem SameHeader.parseRcrc (h : SameHeader s s') (hcrc : s.parsePresent = true →
    ∀ j, j < 8 + s.declaredLen.toNat → s'.byteAt .rx j = s.byteAt .rx j) : s'.parseRcrc = s.parseRcrc := by
  rw [State.parseRcrc, State.parseRcrc, h.present, h.declaredLen]
  cases hpresent : s.parsePresent with
  | false => rfl
  | true => rw [hcrc hpresent _ (by omega), hcrc hpresent _ (by omega)]

/-- All the results, when the frames agree on all the bytes that are present. -/
theorem SameHeader.parsedRegs (h : SameHeader s s')
    (hpayload : s.parseTrunc = false → ∀ j, j < 6 + s.declaredLen.toNat → s'.byteAt .rx j = s.byteAt .rx j)
    (hcrc : s.parsePresent = true → ∀ j, j < 8 + s.declaredLen.toNat → s'.byteAt .rx j = s.byteAt .rx j) :
    s'.parsedRegs = s.parsedRegs := by
  have hmatch : s'.parseMatch = s.parseMatch := by
    rw [State.parseMatch, h.present, h.parseRcrc hcrc, h.parseCalc hpayload, State.parseMatch]
  rw [State.parsedRegs, h.declaredLen, h.plen, h.parseRcrc hcrc, h.parseCalc hpayload, h.trunc, h.present, hmatch,
    h.header 1 (by decide), h.header 2 (by decide), h.header 3 (by decide), State.parsedRegs]

/-- The results beside the CRC bytes' own: RX_CRC and RX_INFO (42_frame.md R110). -/
theorem SameHeader.reg_parsed (h : SameHeader s s') (hregs : s'.regs = s.regs) (hcalc : s'.parseCalc = s.parseCalc)
    {r : RegName} (hr : r ∉ [RegName.rxCrc, .rxInfo]) :
    (succeed (writeParsed s')).reg r = (succeed (writeParsed s)).reg r := by
  have hsame : s'.reg r = s.reg r := by rw [State.reg, hregs, State.reg]
  rw [reg_succeed, reg_succeed, reg_writeParsed, reg_writeParsed]
  cases r
  case rxCmd => rw [h.header 1 (by decide)]
  case rxAddr => rw [h.header 2 (by decide), h.header 3 (by decide)]
  case rxLen => rw [h.declaredLen]
  case rxPlen => rw [h.plen]
  case rxCrc => exact absurd (.head _) hr
  case rxCrcCalc => rw [hcalc]
  case rxInfo => exact absurd (.tail _ (.head _)) hr
  all_goals simp only [hsame]

/-! ### The two runs end alike -/

/-- The parameters, the count and the marker decide how FRM_PARSE ends (42_frame.md R106); a frame too short has no
marker to look at. -/
theorem runFrmParse_end_alike (hparams : s'.params = s.params) (hcount : s'.rxCountCount = s.rxCountCount)
    (hmarker : 6 ≤ s.rxCountCount → s'.byteAt .rx 0 = s.byteAt .rx 0) :
    (∃ e, runFrmParse s = raiseError e s ∧ runFrmParse s' = raiseError e s') ∨
    (6 ≤ s.rxCountCount ∧ runFrmParse s = succeed (writeParsed s) ∧ runFrmParse s' = succeed (writeParsed s')) := by
  rcases runFrmParse_cases s with ⟨hlong, e⟩ | ⟨hfits, hbad, e⟩ | ⟨hfits, h6, hm, e⟩ <;> rw [e]
  · exact .inl ⟨_, rfl, runFrmParse_of_long (by rwa [hparams, hcount])⟩
  · have hbad' : s'.rxCountCount < 6 ∨ s'.byteAt .rx 0 ≠ frameMarker := by
      rw [hcount]
      by_cases h6 : s.rxCountCount < 6
      · exact .inl h6
      · rw [hmarker (not_lt.1 h6)]; exact hbad
    exact .inl ⟨_, rfl, runFrmParse_of_malformed (by rwa [hparams, hcount]) hbad'⟩
  · exact .inr ⟨h6, rfl, runFrmParse_of_marked (by rwa [hparams, hcount]) (by rwa [hcount]) (by rwa [hmarker h6])⟩

theorem regs_setReg_congr (h : s'.regs = s.regs) (r : RegName) (v : Word) :
    (s'.setReg r v).regs = (s.setReg r v).regs := by
  rw [State.setReg, h, State.setReg]

theorem regs_setRegs_congr (h : s'.regs = s.regs) (l : List (RegName × Word)) :
    (s'.setRegs l).regs = (s.setRegs l).regs := by
  rw [State.setRegs, h, State.setRegs]

/-- What a success leaves in STATUS and the registers it lists is the list's alone. -/
theorem reg_succeed_setRegs_of_mem {l : List (RegName × Word)} {r : RegName} (h : r ∈ l.map Prod.fst ++ [.status]) :
    (succeed (s'.setRegs l)).reg r = (succeed (s.setRegs l)).reg r := by
  rw [succeed, succeed, ← State.setRegs_append_singleton, ← State.setRegs_append_singleton]
  exact State.reg_setRegs_of_mem (by simpa using h)

theorem reg_congr (h : s'.regs = s.regs) (r : RegName) : s'.reg r = s.reg r := congrArg (Regs.get · r) h

theorem rxCountCount_congr (h : s'.regs = s.regs) : s'.rxCountCount = s.rxCountCount := by
  rw [State.rxCountCount, reg_congr h, State.rxCountCount]

end

/-- Settles O37: both counts say no more than that the frame is complete. -/
theorem trailingBytesAreIgnored : Obligations.TrailingBytesAreIgnored := by
  intro s s' m m' len hm hm' hlen hparams hsame hcount hcount' hfits hfits' hmarker
  obtain rfl : m = s.rxCountCount := hm.trans (rxCountCount_eq s).symm
  obtain rfl : m' = s'.rxCountCount := hm'.trans (rxCountCount_eq s').symm
  obtain rfl : len = s.declaredLen.toNat := hlen.trans (toNat_declaredLen s).symm
  have hheader : SameHeader s s' := .of_complete hcount hcount' fun j hj => hsame j (by omega)
  have hregs : s'.parsedRegs = s.parsedRegs :=
    hheader.parsedRegs (fun _ j hj => hsame j (by omega)) fun _ => hsame
  have hmarker' : s'.byteAt .rx 0 = frameMarker := (hsame 0 (by omega)).trans hmarker
  have hrun : runFrmParse s = succeed (writeParsed s) := runFrmParse_of_marked hfits (by omega) hmarker
  have hrun' : runFrmParse s' = succeed (writeParsed s') :=
    runFrmParse_of_marked (by rwa [hparams]) (by omega) hmarker'
  refine ⟨_, _, exec_frmParse s, exec_frmParse s', fun r hr => ?_⟩
  rw [hrun, hrun', writeParsed_eq_setRegs, writeParsed_eq_setRegs, hregs]
  exact reg_succeed_setRegs_of_mem hr

/-- Settles O38: the counts agree, so the runs end alike, and the bytes that a result looks at are below the count. -/
theorem parseReadsOnlyReceivedBytes : Obligations.ParseReadsOnlyReceivedBytes := by
  intro s s' hregs hparams hsame
  rw [← rxCountCount_eq] at hsame
  have hcount := rxCountCount_congr hregs
  refine ⟨_, _, exec_frmParse s, exec_frmParse s', ?_⟩
  rcases runFrmParse_end_alike hparams hcount fun h6 => hsame 0 (by omega) with
    ⟨e, hrun, hrun'⟩ | ⟨h6, hrun, hrun'⟩ <;> rw [hrun, hrun']
  · exact regs_setReg_congr hregs .status _
  · have hheader : SameHeader s s' := .of_count hcount fun j hj => hsame j (by omega)
    have hresults : s'.parsedRegs = s.parsedRegs := by
      refine hheader.parsedRegs (fun htrunc j hj => hsame j ?_) fun hpresent j hj => hsame j ?_
      · have : ¬ s.rxCountCount < 6 + s.declaredLen.toNat := of_decide_eq_false htrunc
        omega
      · have := parsePresent_iff.1 hpresent
        omega
    rw [writeParsed_eq_setRegs, writeParsed_eq_setRegs, hresults]
    exact regs_setReg_congr (regs_setRegs_congr hregs _) .status _

/-- Settles O39: the CRC bytes stand after the marker, the header and the payload, and no other result looks at
them. -/
theorem receivedCrcIsNeverValidated : Obligations.ReceivedCrcIsNeverValidated := by
  intro s s' len hlen hregs hparams hsame
  obtain rfl : len = s.declaredLen.toNat := hlen.trans (toNat_declaredLen s).symm
  have hcount := rxCountCount_congr hregs
  have hbefore : ∀ j, j < 6 + s.declaredLen.toNat → s'.byteAt .rx j = s.byteAt .rx j :=
    fun j hj => hsame j (by omega) (by omega)
  refine ⟨_, _, exec_frmParse s, exec_frmParse s', ?_⟩
  rcases runFrmParse_end_alike hparams hcount fun _ => hbefore 0 (by omega) with
    ⟨e, hrun, hrun'⟩ | ⟨-, hrun, hrun'⟩ <;> rw [hrun, hrun']
  · have hend := reg_congr (regs_setReg_congr hregs .status e.statusWord)
    have hinfo := hend .rxInfo
    refine ⟨?_, fun r _ => hend r, ?_, ?_⟩
    · rw [err_raiseError, err_raiseError]
    · exact congrArg (BitVec.getLsbD · 0) hinfo
    · exact congrArg (BitVec.getLsbD · 1) hinfo
  · have hheader : SameHeader s s' := .of_count hcount fun j hj => hbefore j (by omega)
    obtain ⟨htrunc, hpresent, -⟩ := info_parsed s
    obtain ⟨htrunc', hpresent', -⟩ := info_parsed s'
    refine ⟨by rw [err_succeed, err_succeed], fun r hr => ?_, ?_, ?_⟩
    · exact hheader.reg_parsed hregs (hheader.parseCalc fun _ => hbefore) hr
    · rw [htrunc, htrunc', hheader.trunc]
    · rw [hpresent, hpresent', hheader.present]

end Sys2Proof.Machine
end

section
/-! PROOF. The round trip (O40): a frame that RX holds parses to its own fields, with its own CRC received and
computed. -/

namespace Sys2Proof.Machine

section
variable {u : State} {cmd : Byte} {addr : Half} {payload : List Byte}

theorem HoldsFrame.declaredLen (h : HoldsFrame u .rx cmd addr payload) :
    u.declaredLen = BitVec.ofNat 16 payload.length := by
  rw [State.declaredLen, h.lenHigh, h.lenLow, pair_highByte_lowByte]

theorem HoldsFrame.toNat_declaredLen (h : HoldsFrame u .rx cmd addr payload) (hlen : payload.length < 2 ^ 16) :
    u.declaredLen.toNat = payload.length := by
  rw [h.declaredLen, BitVec.toNat_ofNat, Nat.mod_eq_of_lt hlen]

/-- A complete frame parses with its own CRC, received and computed (42_frame.md R105, R107). -/
theorem HoldsFrame.crcs (h : HoldsFrame u .rx cmd addr payload) (hlen : payload.length < 2 ^ 16)
    (hcount : payload.length + 8 ≤ u.rxCountCount) :
    u.parseRcrc = frameCrc cmd addr payload ∧ u.parseCalc = frameCrc cmd addr payload := by
  rw [parseRcrc_eq, parseCalc_eq, h.toNat_declaredLen hlen, if_pos (by omega), if_neg (by omega), h.crcHigh, h.crcLow,
    pair_highByte_lowByte, h.covered]
  exact ⟨rfl, rfl⟩

end

/-- Settles O40: RX holds the frame that TX does, and a frame that RX holds parses to its own fields. -/
theorem buildThenParseRoundTrip : Obligations.BuildThenParseRoundTrip := by
  intro s t u n hn hfits hbuild hparams hcount hcopy
  obtain rfl : n = s.frmLenCount := hn.trans (frmLenCount_eq s).symm
  cases (exec_frmBuild s).symm.trans hbuild
  have hlt := frmLenCount_lt s
  have hbytes : u.bytesAt .rx 0 (s.frmLenCount + 8) = (runFrmBuild s).bytesAt .tx 0 (s.frmLenCount + 8) :=
    State.bytesAt_congr fun j hj => by rw [Nat.zero_add, hcopy j hj]
  have hframe : HoldsFrame u .rx s.frmCmdByte s.frmAddrHalf s.framePayload :=
    holdsFrame_of_bytesAt (by rw [length_framePayload, hbytes, bytesAt_runFrmBuild hfits])
  have hm : u.rxCountCount = s.frmLenCount + 8 := by
    rw [rxCountCount_eq, hcount, txCount_runFrmBuild hfits, Nat.mod_eq_of_lt (by omega)]
  have hlen : u.declaredLen.toNat = s.frmLenCount := by
    rw [hframe.toNat_declaredLen (by rwa [length_framePayload]), length_framePayload]
  obtain ⟨hrcrc, hcalc⟩ := hframe.crcs (by rwa [length_framePayload]) (by rw [length_framePayload, hm])
  obtain ⟨htrunc, hpresent, hplen⟩ := parse_of_complete (s := u) (by omega)
  have hmatch : u.parseMatch = true := (parseMatch_iff u).2 ⟨hpresent, hrcrc.trans hcalc.symm⟩
  refine ⟨_, exec_frmParse u, ?_⟩
  rw [runFrmParse_of_marked (by rw [hparams, hm]; exact Nat.add_le_add_right hfits 8) (by omega) hframe.marker]
  refine ⟨err_succeed _, ?_, ?_, ?_, ?_, fun i hi => ?_, ?_, ?_, ?_⟩
  · rw [rxCmd_parsed, hframe.command, BitVec.toNat_setWidth_of_le (by decide), State.frmCmdByte,
      BitVec.extractLsb'_toNat, Nat.shiftRight_zero]
  · rw [toNat_rxAddr_parsed, hframe.addrHigh, hframe.addrLow, toNat_highByte_lowByte, State.frmAddrHalf,
      BitVec.extractLsb'_toNat, Nat.shiftRight_zero]
  · rw [toNat_rxLen_parsed, hlen]
  · rw [toNat_rxPlen_parsed, hplen, hlen]
  · rw [sameBytes_parsed, hframe.byteAt_payload (by rwa [length_framePayload]), getD_framePayload s hi]
  · rw [rxCrc_parsed, hrcrc, frmCrc_runFrmBuild hfits]
  · rw [rxCrcCalc_parsed, hcalc, frmCrc_runFrmBuild hfits]
  · rw [rxInfo_parsed, htrunc, hpresent, hmatch]; rfl

end Sys2Proof.Machine
end

section
/-! PROOF. The 5:6:5 conversion and PIX_CONV (O42, O43). The three fields of a pixel do not overlap, so its value is
their weighted sum, and each field reads back the top bits of its channel. The order BGR565 exchanges the arguments. -/

namespace Sys2Proof.Machine

/-! ### The conversion -/

/-- Bits `k .. k+n-1` of a word, as a number. -/
theorem toNat_extractLsb' {w : Nat} (x : BitVec w) (k n : Nat) :
    (x.extractLsb' k n).toNat = x.toNat / 2 ^ k % 2 ^ n := by
  rw [BitVec.extractLsb'_toNat, Nat.shiftRight_eq_div_pow]

theorem to565_bgr565 (r g b : Byte) : to565 r g b .bgr565 = to565 b g r .rgb565 := rfl

/-- Fields of 5, 6 and 5 bits do not overlap. -/
theorem toNat_pack565 {hi5 g6 lo5 : Half} (hhi : hi5.toNat < 2 ^ 5) (hg : g6.toNat < 2 ^ 6) (hlo : lo5.toNat < 2 ^ 5) :
    (pack565 hi5 g6 lo5).toNat = hi5.toNat * 2 ^ 11 + g6.toNat * 2 ^ 5 + lo5.toNat := by
  have hlow : g6.toNat * 2 ^ 5 + lo5.toNat = g6.toNat <<< 5 ||| lo5.toNat := by
    rw [← Nat.shiftLeft_eq, Nat.shiftLeft_add_eq_or_of_lt hlo]
  have hsum : hi5.toNat * 2 ^ 11 + (g6.toNat * 2 ^ 5 + lo5.toNat) =
      hi5.toNat <<< 11 ||| (g6.toNat * 2 ^ 5 + lo5.toNat) := by
    rw [← Nat.shiftLeft_eq, Nat.shiftLeft_add_eq_or_of_lt (by omega)]
  rw [pack565, BitVec.or_assoc, BitVec.toNat_or, BitVec.toNat_or, BitVec.toNat_shiftLeft, BitVec.toNat_shiftLeft,
    Nat.mod_eq_of_lt (by rw [Nat.shiftLeft_eq]; omega), Nat.mod_eq_of_lt (by rw [Nat.shiftLeft_eq]; omega), ← hlow,
    ← hsum, Nat.add_assoc]

/-- The bits of a channel from bit `k` on, as a number. -/
theorem toNat_channel_shiftRight (x : Byte) (k : Nat) : ((x >>> k).setWidth 16).toNat = x.toNat / 2 ^ k := by
  rw [BitVec.toNat_setWidth_of_le (by decide), BitVec.toNat_ushiftRight, Nat.shiftRight_eq_div_pow]

/-- The value of a pixel (43_pixel.md R115). -/
theorem toNat_to565_rgb565 (r g b : Byte) :
    (to565 r g b .rgb565).toNat = r.toNat / 2 ^ 3 * 2 ^ 11 + g.toNat / 2 ^ 2 * 2 ^ 5 + b.toNat / 2 ^ 3 := by
  rw [to565, toNat_pack565, toNat_channel_shiftRight, toNat_channel_shiftRight, toNat_channel_shiftRight]
  all_goals rw [toNat_channel_shiftRight]; omega

/-- The fields of a pixel (43_pixel.md R116). -/
theorem fields_to565_rgb565 (r g b : Byte) :
    (to565 r g b .rgb565).extractLsb' 11 5 = r.extractLsb' 3 5 ∧
    (to565 r g b .rgb565).extractLsb' 5 6 = g.extractLsb' 2 6 ∧
    (to565 r g b .rgb565).extractLsb' 0 5 = b.extractLsb' 3 5 := by
  refine ⟨BitVec.eq_of_toNat_eq ?_, BitVec.eq_of_toNat_eq ?_, BitVec.eq_of_toNat_eq ?_⟩
  all_goals rw [toNat_extractLsb', toNat_extractLsb', toNat_to565_rgb565]; omega

/-! ### PIX_CONV -/

theorem toNat_pixRed (s : State) : s.pixRed.toNat = (s.reg .pixRgb).toNat / 2 ^ 16 % 2 ^ 8 :=
  toNat_extractLsb' _ 16 8

theorem toNat_pixGreen (s : State) : s.pixGreen.toNat = (s.reg .pixRgb).toNat / 2 ^ 8 % 2 ^ 8 :=
  toNat_extractLsb' _ 8 8

theorem toNat_pixBlue (s : State) : s.pixBlue.toNat = (s.reg .pixRgb).toNat % 2 ^ 8 := by
  rw [State.pixBlue, toNat_extractLsb', Nat.pow_zero, Nat.div_one]

/-- The register word of a pixel (10_state.md R43). -/
theorem setWidth_to565_rgb565 (r g b : Byte) :
    (to565 r g b .rgb565).setWidth 32 =
      BitVec.ofNat 32 (r.toNat / 2 ^ 3 * 2 ^ 11 + g.toNat / 2 ^ 2 * 2 ^ 5 + b.toNat / 2 ^ 3) := by
  rw [← toNat_to565_rgb565, BitVec.ofNat_toNat]

theorem pix565_runPixConv (ord : PixelOrder) (s : State) :
    (runPixConv ord s).reg .pix565 = (to565 s.pixRed s.pixGreen s.pixBlue ord).setWidth 32 := rfl

/-- Settles O43: the value and the fields in RGB565, and BGR565 with red and blue exchanged. -/
theorem pixelFieldLayout : Obligations.PixelFieldLayout := by
  intro r g b
  obtain ⟨hred, hgreen, hblue⟩ := fields_to565_rgb565 r g b
  obtain ⟨hblue', hgreen', hred'⟩ := fields_to565_rgb565 b g r
  rw [to565_bgr565]
  exact ⟨toNat_to565_rgb565 r g b, toNat_to565_rgb565 b g r, hred, hgreen, hblue, hblue', hgreen', hred'⟩

/-- Settles O42: the words of PIX_CONV are its encodings, and its run stores the value of the pixel. -/
theorem pixConvConvertsOnePixel : Obligations.PixConvConvertsOnePixel := by
  refine ⟨fun w => ⟨decodeCommand_eq_ok_iff_of_encode rfl, decodeCommand_eq_ok_iff_of_encode rfl⟩,
    fun s r g b hr hg hb => ?_⟩
  rw [← toNat_pixRed] at hr
  rw [← toNat_pixGreen] at hg
  rw [← toNat_pixBlue] at hb
  subst hr hg hb
  rw [exec_pixConv, exec_pixConv, runPixConv, runPixConv, to565_bgr565, setWidth_to565_rgb565, setWidth_to565_rgb565]
  exact ⟨rfl, rfl⟩

end Sys2Proof.Machine
end

section
/-! PROOF. PIX_BUF (O44, O45, O46). The count decides whether it converts. Lane `i` of a converted image is the pixel
of the first three bytes from `bpp × i`, which PIX_CONV computes too, and which are no alpha byte. -/

namespace Sys2Proof.Machine

section
variable {s s' u : State} {ord : PixelOrder} {ifmt : InputFormat} {r g b : Byte}

/-! ### What PIX_BUF leaves -/

theorem pixinCountCount_eq (s : State) : s.pixinCountCount = (s.reg .pixinCount).toNat % 2 ^ 18 := by
  rw [State.pixinCountCount, toNat_extractLsb', Nat.pow_zero, Nat.div_one]

theorem runPixBuf_of_wrong_count (h : s.pixinCountCount ≠ s.params.pixels * bytesPerPixel ifmt) :
    runPixBuf ord ifmt s = raiseError .byteCount s := by
  rcases runPixBuf_cases s ord ifmt with ⟨-, hrun⟩ | ⟨heq, -⟩
  · exact hrun
  · exact absurd heq h

theorem runPixBuf_of_count (h : s.pixinCountCount = s.params.pixels * bytesPerPixel ifmt) :
    runPixBuf ord ifmt s = succeed (s.storeBytes .pixout 0 (s.convertedBytes ord ifmt)) := by
  rcases runPixBuf_cases s ord ifmt with ⟨hne, -⟩ | ⟨-, hrun⟩
  · exact absurd h hne
  · exact hrun

/-- PIXOUT holds the converted image from byte 0 on (43_pixel.md R119). -/
theorem pixout_runPixBuf (h : s.pixinCountCount = s.params.pixels * bytesPerPixel ifmt) {k : Nat}
    (hk : k < 2 * s.params.pixels) :
    (runPixBuf ord ifmt s).byteAt .pixout k = (s.convertedBytes ord ifmt).getD k 0 := by
  rw [runPixBuf_of_count h, byteAt_succeed]
  have hstored := State.byteAt_storeBytes_inside s .pixout 0 (s.convertedBytes ord ifmt) (j := k)
    (by rwa [length_convertedBytes])
  rwa [Nat.zero_add] at hstored

/-- The two output bytes of a lane, low byte first (43_pixel.md R118, R119). -/
theorem lane_runPixBuf (h : s.pixinCountCount = s.params.pixels * bytesPerPixel ifmt) {i : Nat}
    (hi : i < s.params.pixels) :
    (runPixBuf ord ifmt s).byteAt .pixout (2 * i) = lowByte (s.lanePixel ord ifmt i) ∧
    (runPixBuf ord ifmt s).byteAt .pixout (2 * i + 1) = highByte (s.lanePixel ord ifmt i) := by
  rw [pixout_runPixBuf h (by omega), pixout_runPixBuf h (by omega)]
  exact getD_convertedBytes s ord ifmt hi

/-! ### The channels of PIX_RGB -/

/-- PIX_RGB determines each channel (10_state.md R42). -/
theorem channels_of_pixRgb
    (h : (u.reg .pixRgb).toNat % 2 ^ 24 = r.toNat * 2 ^ 16 + g.toNat * 2 ^ 8 + b.toNat) :
    u.pixRed = r ∧ u.pixGreen = g ∧ u.pixBlue = b := by
  refine ⟨BitVec.eq_of_toNat_eq ?_, BitVec.eq_of_toNat_eq ?_, BitVec.eq_of_toNat_eq ?_⟩
  · rw [toNat_pixRed]; omega
  · rw [toNat_pixGreen]; omega
  · rw [toNat_pixBlue]; omega

/-! ### Alpha -/

/-- A lane of RGBA8888 looks at no byte 3 of a pixel (43_pixel.md R120). -/
theorem lanePixel_rgba8888_congr (h : ∀ j, j % 4 ≠ 3 → s'.byteAt .pixin j = s.byteAt .pixin j) (ord : PixelOrder)
    (i : Nat) : s'.lanePixel ord .rgba8888 i = s.lanePixel ord .rgba8888 i := by
  rw [State.lanePixel, bytesPerPixel, h _ (by omega), h _ (by omega), h _ (by omega)]
  rfl

theorem convertedBytes_rgba8888_congr (hparams : s'.params = s.params)
    (h : ∀ j, j % 4 ≠ 3 → s'.byteAt .pixin j = s.byteAt .pixin j) (ord : PixelOrder) :
    s'.convertedBytes ord .rgba8888 = s.convertedBytes ord .rgba8888 := by
  simp only [State.convertedBytes, hparams, lanePixel_rgba8888_congr h]

end

/-- Settles O44: the words of PIX_BUF are its encodings, and the count decides between an image and BYTE_COUNT. -/
theorem pixBufConvertsEveryPixel : Obligations.PixBufConvertsEveryPixel := by
  refine ⟨fun w => ⟨decodeCommand_eq_ok_iff_of_encode rfl, decodeCommand_eq_ok_iff_of_encode rfl,
    decodeCommand_eq_ok_iff_of_encode rfl, decodeCommand_eq_ok_iff_of_encode rfl⟩, fun s ord ifmt bpp hbpp => ?_⟩
  obtain rfl : bpp = bytesPerPixel ifmt := hbpp.trans (by cases ifmt <;> rfl)
  rw [← pixinCountCount_eq]
  refine ⟨fun hcount => ⟨_, exec_pixBuf s ord ifmt, ?_, ?_, sameRegsBut_exec_command rfl (exec_pixBuf s ord ifmt),
    fun b j hj => ?_, sameWorld_exec_command rfl (exec_pixBuf s ord ifmt)⟩, fun hcount => ?_⟩
  · rintro i v hi rfl
    exact lane_runPixBuf hcount hi
  · rw [runPixBuf_of_count hcount]; rfl
  · refine byteAt_exec_of_not_commandStores rfl (exec_pixBuf s ord ifmt) fun h => ?_
    obtain ⟨⟨⟩, -⟩ | ⟨_, _, -, rfl, hlt⟩ := commandStores_cases h
    have hout := hj.resolve_left (· rfl)
    omega
  · rw [exec_pixBuf, runPixBuf_of_wrong_count hcount]; rfl

/-- Settles O45: both commands convert the same three channels. -/
theorem pixBufLanesArePixConv : Obligations.PixBufLanesArePixConv := by
  intro s u ord ifmt bpp i hbpp hi hcount hrgb
  obtain rfl : bpp = bytesPerPixel ifmt := hbpp.trans (by cases ifmt <;> rfl)
  rw [← pixinCountCount_eq] at hcount
  obtain ⟨hred, hgreen, hblue⟩ := channels_of_pixRgb hrgb
  obtain ⟨hlow, hhigh⟩ := lane_runPixBuf (ord := ord) hcount hi
  refine ⟨_, _, exec_pixBuf s ord ifmt, exec_pixConv u ord, ?_⟩
  rw [hlow, hhigh, pix565_runPixConv, hred, hgreen, hblue, BitVec.toNat_setWidth_of_le (by decide)]
  exact toNat_highByte_lowByte (s.lanePixel ord ifmt i)

/-- Settles O46: both runs store the same image. -/
theorem alphaIsNeverRead : Obligations.AlphaIsNeverRead := by
  intro s s' ord hregs hparams hexact hsame
  have hcount : s.pixinCountCount = s.params.pixels * bytesPerPixel .rgba8888 := (pixinCountCount_eq s).trans hexact
  have hcount' : s'.pixinCountCount = s'.params.pixels * bytesPerPixel .rgba8888 := by
    rwa [pixinCountCount_eq, reg_congr hregs, ← pixinCountCount_eq, hparams]
  refine ⟨_, _, exec_pixBuf s ord .rgba8888, exec_pixBuf s' ord .rgba8888, ?_, fun k hk => ?_⟩
  · rw [runPixBuf_of_count hcount, runPixBuf_of_count hcount']
    exact regs_setReg_congr hregs .status _
  · rw [pixout_runPixBuf hcount hk, pixout_runPixBuf hcount' (by rwa [hparams]),
      convertedBytes_rgba8888_congr hparams hsame]

end Sys2Proof.Machine
end

section
/-! PROOF. When a transaction is refused (O11). The target check fails in six ways, the conditions of 60_exceptions.md
R131 that do not look at WE; where it finds a target, only a write can still be refused, by the target's access. -/

namespace Sys2Proof.Machine

section
variable {s : State} {p : Config.Params} {size : AccessSize} {off : Nat} {target : Target} {req wdata : Word}
  {rest : List HostEvent}

/-! ### The size of a request -/

theorem ofBits_eq_reserved_iff (b : BitVec 2) : AccessSize.ofBits b = .reserved ↔ b.toNat = 3 := by
  revert b; decide

theorem ofBits_eq_word_iff (b : BitVec 2) : AccessSize.ofBits b = .word ↔ b.toNat = 2 := by
  revert b; decide

theorem accessBytes_ofBits (b : BitVec 2) : accessBytes (.ofBits b) = 2 ^ b.toNat := by
  revert b; decide

/-! ### When an offset names nothing, and when what it names is read-only -/

/-- No register lies in a window (20_memory.md R56). -/
theorem not_inAperture_offset (r : RegName) (b : Buffer) : ¬ inAperture b r.offset := by
  rintro ⟨hbase, -⟩
  have := base_gt b
  have := offset_le r
  omega

theorem busTarget_eq_none_iff :
    busTarget p size off = none ↔
      size = .reserved ∨ off % accessBytes size ≠ 0 ∨ (off ≤ 0x000FF ∧ size ≠ .word) ∨
      (off ≤ 0x000FF ∧ ∀ r : RegName, r.offset ≠ off) ∨ (0x000FF < off ∧ ∀ b : Buffer, ¬ inAperture b off) ∨
      ∃ b : Buffer, inAperture b off ∧ capacity p b < off - windowBase b + accessBytes size := by
  constructor
  · intro hnone
    by_contra hok
    push Not at hok
    obtain ⟨hres, halign, hword, hreg, hwin, hfits⟩ := hok
    rcases Nat.lt_or_ge 0x000FF off with hoff | hoff
    · obtain ⟨b, hin⟩ := hwin hoff
      have hb : busTarget p size off = some (.window b (off - windowBase b)) :=
        busTarget_window.2 ⟨hres, halign, hin, Nat.add_sub_of_le hin.1, hfits b hin⟩
      cases hnone.symm.trans hb
    · obtain ⟨r, hr⟩ := hreg hoff
      have hr : busTarget p size off = some (.register r) := busTarget_register.2 ⟨hword hoff, hr.symm⟩
      cases hnone.symm.trans hr
  · intro hbad
    rw [Option.eq_none_iff_forall_ne_some]
    rintro (r | ⟨b, k⟩) htarget
    · obtain ⟨rfl, rfl⟩ := busTarget_register.1 htarget
      have hle := offset_le r
      have halign : r.offset % accessBytes .word = 0 := offset_aligned r
      rcases hbad with h | h | ⟨-, h⟩ | ⟨-, h⟩ | ⟨h, -⟩ | ⟨b, h, -⟩
      · cases h
      · exact h halign
      · exact h rfl
      · exact h r rfl
      · omega
      · exact not_inAperture_offset r b h
    · obtain ⟨hres, halign, hin, hk, hfits⟩ := busTarget_window.1 htarget
      have hbase := base_gt b
      rcases hbad with h | h | ⟨h, -⟩ | ⟨h, -⟩ | ⟨-, h⟩ | ⟨b', hin', h⟩
      · exact hres h
      · exact h halign
      · omega
      · omega
      · exact h b hin
      · obtain rfl := aperture_unique hin hin'
        omega

theorem readOnly_target_iff (htarget : busTarget p size off = some target) :
    target.readOnly = true ↔
      (∃ r : RegName, r.offset = off ∧ r.readOnly = true) ∨
      (∃ b : Buffer, inAperture b off ∧ windowReadOnly b = true) := by
  cases target with
  | register r =>
    obtain ⟨-, rfl⟩ := busTarget_register.1 htarget
    refine ⟨fun h => .inl ⟨r, rfl, h⟩, ?_⟩
    rintro (⟨r', hr', h⟩ | ⟨b, hin, -⟩)
    · obtain rfl : r = r' := Option.some.inj ((registerAt_offset r).symm.trans (registerAt_eq_some.2 hr'))
      exact h
    · exact absurd hin (not_inAperture_offset r b)
  | window b k =>
    obtain ⟨-, -, hin, -⟩ := busTarget_window.1 htarget
    refine ⟨fun h => .inr ⟨b, hin, h⟩, ?_⟩
    rintro (⟨r, rfl, -⟩ | ⟨b', hin', h⟩)
    · exact absurd hin (not_inAperture_offset r b)
    · obtain rfl := aperture_unique hin hin'
      exact h

/-! ### The conditions on the request word -/

theorem busTarget_request_eq_none_iff :
    busTarget p (.ofBits (reqSize req)) (reqOffset req).toNat = none ↔
      requestSize req = 3 ∨ requestOffset req % 2 ^ requestSize req ≠ 0 ∨
      (requestOffset req ≤ 0x000FF ∧ requestSize req ≠ 2) ∨
      (requestOffset req ≤ 0x000FF ∧ ∀ r : RegName, r.offset ≠ requestOffset req) ∨
      (0x000FF < requestOffset req ∧ ∀ b : Buffer, ¬ inAperture b (requestOffset req)) ∨
      ∃ b : Buffer, inAperture b (requestOffset req) ∧
        capacity p b < requestOffset req - windowBase b + 2 ^ requestSize req := by
  have hsize : requestSize req = (reqSize req).toNat := (toNat_reqSize req).symm
  have hoff : requestOffset req = (reqOffset req).toNat := (toNat_reqOffset req).symm
  simp only [busTarget_eq_none_iff, ofBits_eq_reserved_iff, ofBits_eq_word_iff, accessBytes_ofBits, hsize, hoff, ne_eq]

/-- The conditions of 60_exceptions.md R131, by the check of 20_memory.md R49 that finds each. -/
theorem busRefused_iff :
    busRefused p req ↔
      reqReserved req ≠ 0#9 ∨
      busTarget p (.ofBits (reqSize req)) (reqOffset req).toNat = none ∨
      (reqWriteEnable req = 1#1 ∧
        ∃ target, busTarget p (.ofBits (reqSize req)) (reqOffset req).toNat = some target ∧ target.readOnly = true) := by
  have hrsv : reqReserved req ≠ 0#9 ↔ req.toNat / 2 ^ 23 ≠ 0 := by
    rw [← toNat_reqReserved, ← BitVec.toNat_ne_iff_ne]; rfl
  have hwe : reqWriteEnable req = 1#1 ↔ req.toNat / 2 ^ 22 % 2 = 1 := by
    rw [← toNat_reqWriteEnable, ← BitVec.toNat_inj]; rfl
  have hchecks : busRefused p req ↔
      reqReserved req ≠ 0#9 ∨
      busTarget p (.ofBits (reqSize req)) (reqOffset req).toNat = none ∨
      (reqWriteEnable req = 1#1 ∧
        ((∃ r : RegName, r.offset = (reqOffset req).toNat ∧ r.readOnly = true) ∨
         (∃ b : Buffer, inAperture b (reqOffset req).toNat ∧ windowReadOnly b = true))) := by
    rw [busTarget_request_eq_none_iff, hrsv, hwe, toNat_reqOffset]
    simp only [busRefused, requestOffset, or_assoc]
  rw [hchecks]
  cases htarget : busTarget p (.ofBits (reqSize req)) (reqOffset req).toNat with
  | none => simp
  | some target => simp [readOnly_target_iff htarget]

/-! ### The step of a refused and of an accepted transaction -/

/-- A refused transaction only answers (0, BUSERR) (60_exceptions.md R131). -/
theorem step_of_busRefused (hp : s.pending = .bus req wdata :: rest) (h : busRefused s.params req) :
    step s = .next ((s.withPending rest).respond ⟨0#32, .buserr⟩) := by
  rw [busRefused_iff] at h
  rcases decodeRequest_cases req wdata with ⟨-, hd⟩ | ⟨hrsv, hread, hd⟩ | ⟨hrsv, hwrite, hd⟩
  · exact step_of_decodeRequest_error hp hd
  · rw [step_of_decodeRequest_ok hp hd, exec_busRead]
    rcases h with h | hnone | ⟨hwrite, -⟩
    · exact absurd hrsv h
    · rw [runBusRead_of_none (s.withPending rest) hnone]
    · cases hread.symm.trans hwrite
  · rw [step_of_decodeRequest_ok hp hd, exec_busWrite]
    rcases h with h | hnone | ⟨-, target, htarget, hro⟩
    · exact absurd hrsv h
    · rw [runBusWrite_of_none (s.withPending rest) hnone]
    · rw [runBusWrite_of_readOnly (s.withPending rest) htarget hro]

theorem step_of_not_busRefused (hp : s.pending = .bus req wdata :: rest) (h : ¬ busRefused s.params req) :
    ∃ t v, step s = .next t ∧ t.responses = ⟨v, .okay⟩ :: s.responses := by
  rw [busRefused_iff] at h
  push Not at h
  obtain ⟨hrsv, hsome, hwritable⟩ := h
  obtain ⟨target, htarget⟩ := Option.ne_none_iff_exists'.1 hsome
  rcases decodeRequest_cases req wdata with ⟨hrsv', -⟩ | ⟨-, -, hd⟩ | ⟨-, hwrite, hd⟩
  · exact absurd hrsv hrsv'
  · have hstep : step s = .next ((s.withPending rest).respond
        ⟨(s.withPending rest).readTarget (.ofBits (reqSize req)) target, .okay⟩) := by
      rw [step_of_decodeRequest_ok hp hd, exec_busRead, runBusRead_of_some (s.withPending rest) htarget]
    exact ⟨_, _, hstep, rfl⟩
  · have hro : target.readOnly = false := by simpa using hwritable hwrite target htarget
    have hstep : step s = .next
        ((writeTarget (.ofBits (reqSize req)) wdata target (s.withPending rest)).respond ⟨0#32, .okay⟩) := by
      rw [step_of_decodeRequest_ok hp hd, exec_busWrite, runBusWrite_of_writable (s.withPending rest) htarget hro]
    obtain ⟨-, -, -, hresponses⟩ := sameWorld_writeTarget (.ofBits (reqSize req)) wdata target (s.withPending rest)
    exact ⟨_, _, hstep, congrArg (List.cons _) hresponses⟩

end

/-- Settles O11: the listed conditions are those under which the checks of the step fail. -/
theorem busErrorExactlyWhenRefused : Obligations.BusErrorExactlyWhenRefused :=
  fun _ _ _ _ hp => ⟨step_of_busRefused hp, step_of_not_busRefused hp⟩

end Sys2Proof.Machine
end

section
/-! PROOF. The causes of the error codes (O20). The code is part of the effect a command computes, so each cause is read
off the effect's own conditions; STATUS then holds the code's number. -/

namespace Sys2Proof.Machine

section
variable {s : State} {i : Instr}

/-! ### The code that each checking command leaves -/

theorem code_commandEffect_crcBuf (s : State) : (commandEffect .crcBuf s).code =
    if s.params.maxPayload < s.crcLenCount then .length else .ok := by
  rw [commandEffect, apply_ite Effect.code]; rfl

theorem code_commandEffect_frmBuild (s : State) : (commandEffect .frmBuild s).code =
    if s.params.maxPayload < s.frmLenCount then .length else .ok := by
  rw [commandEffect, apply_ite Effect.code]; rfl

theorem code_commandEffect_frmParse (s : State) : (commandEffect .frmParse s).code =
    if capacity s.params .rx < s.rxCountCount then .length
    else if s.rxCountCount < 6 ∨ s.byteAt .rx 0 ≠ frameMarker then .malformedFrame else .ok := by
  rw [commandEffect, apply_ite Effect.code, apply_ite Effect.code]; rfl

theorem code_commandEffect_pixBuf (ord : PixelOrder) (ifmt : InputFormat) (s : State) :
    (commandEffect (.pixBuf ord ifmt) s).code =
      if s.pixinCountCount ≠ s.params.pixels * bytesPerPixel ifmt then .byteCount else .ok := by
  rw [commandEffect, apply_ite Effect.code]; rfl

/-! ### The causes (60_exceptions.md R125) -/

/-- ILLEGAL_CMD is no command's code: only a word that stands for no command raises it. -/
theorem code_commandEffect_ne_illegalCmd (i : Instr) (s : State) : (commandEffect i s).code ≠ .illegalCmd := by
  cases i
  case crcBuf => rw [code_commandEffect_crcBuf]; split <;> nofun
  case frmBuild => rw [code_commandEffect_frmBuild]; split <;> nofun
  case frmParse =>
    rw [code_commandEffect_frmParse]
    split
    · nofun
    · split <;> nofun
  case pixBuf => rw [code_commandEffect_pixBuf]; split <;> nofun
  all_goals nofun

theorem code_eq_length_iff : (commandEffect i s).code = .length ↔
    (i = .crcBuf ∧ s.params.maxPayload < s.crcLenCount) ∨
    (i = .frmBuild ∧ s.params.maxPayload < s.frmLenCount) ∨
    (i = .frmParse ∧ capacity s.params .rx < s.rxCountCount) := by
  cases i
  case crcBuf => simp [code_commandEffect_crcBuf]
  case frmBuild => simp [code_commandEffect_frmBuild]
  case frmParse => simp [code_commandEffect_frmParse, ite_eq_iff]
  case pixBuf => simp [code_commandEffect_pixBuf, ite_eq_iff]
  all_goals simp [commandEffect, Effect.onlyStatus]

theorem code_eq_malformedFrame_iff : (commandEffect i s).code = .malformedFrame ↔
    i = .frmParse ∧ s.rxCountCount ≤ capacity s.params .rx ∧
      (s.rxCountCount < 6 ∨ s.byteAt .rx 0 ≠ frameMarker) := by
  cases i
  case crcBuf => simp [code_commandEffect_crcBuf, ite_eq_iff]
  case frmBuild => simp [code_commandEffect_frmBuild, ite_eq_iff]
  case frmParse =>
    rw [code_commandEffect_frmParse]
    by_cases hlong : capacity s.params .rx < s.rxCountCount
    · simp [hlong]
    · by_cases hbad : s.rxCountCount < 6 ∨ s.byteAt .rx 0 ≠ frameMarker
      · simp [hlong, hbad, not_lt.1 hlong]
      · simp [hlong, hbad]
  case pixBuf => simp [code_commandEffect_pixBuf, ite_eq_iff]
  all_goals simp [commandEffect, Effect.onlyStatus]

theorem code_eq_byteCount_iff : (commandEffect i s).code = .byteCount ↔
    ∃ ord ifmt, i = .pixBuf ord ifmt ∧ s.pixinCountCount ≠ s.params.pixels * bytesPerPixel ifmt := by
  cases i
  case crcBuf => simp [code_commandEffect_crcBuf, ite_eq_iff]
  case frmBuild => simp [code_commandEffect_frmBuild, ite_eq_iff]
  case frmParse => simp [code_commandEffect_frmParse, ite_eq_iff]
  case pixBuf ord ifmt => simp [code_commandEffect_pixBuf]
  all_goals simp [commandEffect, Effect.onlyStatus]

/-! ### The number in STATUS -/

theorem toNat_statusWord_eq_iff (e e' : ErrorCode) : e.statusWord.toNat = e'.statusWord.toNat ↔ e = e' := by
  cases e <;> cases e' <;> decide

end

/-- Settles O20: STATUS holds the code of the command's effect, and the operands decide the code. -/
theorem errorCodesHaveTheirCauses : Obligations.ErrorCodesHaveTheirCauses := by
  refine ⟨fun i s hi => ⟨_, exec_command hi s, ?_⟩, fun w s hno => ?_⟩
  · rw [Effect.status_apply, ← crcLenCount_eq, ← frmLenCount_eq, ← rxCountCount_eq, ← pixinCountCount_eq]
    refine ⟨?_, ?_, ?_, ?_⟩
    · have hcode := code_commandEffect_ne_illegalCmd i s
      revert hcode
      cases (commandEffect i s).code <;> decide
    · exact (toNat_statusWord_eq_iff _ .length).trans code_eq_length_iff
    · exact (toNat_statusWord_eq_iff _ .malformedFrame).trans code_eq_malformedFrame_iff
    · refine ((toNat_statusWord_eq_iff _ .byteCount).trans code_eq_byteCount_iff).trans ?_
      refine exists_congr fun ord => exists_congr fun ifmt => ?_
      cases ifmt <;> rfl
  · obtain ⟨e, hd⟩ := error_iff_no_match.2 hno
    refine ⟨_, exec_cmdWrite s w, ?_⟩
    rw [executeCommand_of_error _ hd, State.reg_respond, State.reg_setReg_same]
    rfl

end Sys2Proof.Machine
end

section
/-! PROOF. Reset (O13, O14, O15, O16) and the buffer commands after it (O54). A reset's registers and memories are fixed
and its bytes are draws of its own number, so nothing of the state before it is left. With every register 0 every
operand is 0: the counts of CRC_BUF and FRM_BUILD are an empty sequence, those of FRM_PARSE and PIX_BUF are wrong. -/

namespace Sys2Proof.Machine

/-! ### The state after reset -/

@[simp] theorem reg_reset (r : RegName) : State.reset.reg r = 0#32 := Regs.get_atReset r

/-- Settles O13: reset writes all the registers and leaves the host's side of the bus alone. -/
theorem resetZeroesEveryRegister : Obligations.ResetZeroesEveryRegister :=
  ⟨reg_reset, fun s rest hp => ⟨_, step_reset hp, reg_applyReset (s.withPending rest), rfl, rfl, rfl⟩⟩

/-- Settles O14: both resets have the same number, which alone names the draws. -/
theorem resetForgetsBuffers : Obligations.ResetForgetsBuffers := by
  intro s s' rest hp hp' hepoch _
  refine ⟨_, _, step_reset hp, step_reset hp', rfl, rfl, fun b k => ?_⟩
  rw [byteAt_applyReset, byteAt_applyReset, State.epoch_withPending, State.epoch_withPending, hepoch]

/-- Settles O15: abandoning a transaction is a reset and one response. -/
theorem abandonedTransactionLeavesTheResetState : Obligations.AbandonedTransactionLeavesTheResetState :=
  fun s _ _ _ hp => ⟨_, _, _, step_resetDuring hp, step_reset (State.pending_withPending s _), rfl⟩

/-- Settles O16: the registers are 0, the memories are empty, and this hardware's parameters are legal. -/
theorem resetStateIsSound : Obligations.ResetStateIsSound where
  params := by decide
  reserved r := by rw [reg_reset, BitVec.zero_and]
  err := by rw [State.errLegal, State.err, reg_reset]; decide
  buffers b := ⟨reset_memory_wf b, by simp [State.reset, Memory.below]⟩
  txCount := .inl (reg_reset .txCount)
  parse := by simp [State.parseResultsAgree, State.infoTrunc, State.infoCrcPresent, State.infoCrcMatch]

section
variable {s : State} {r : RegName} {v : Word}

/-! ### Operands that are 0 -/

theorem crcLenCount_of_reg_eq_zero (h : s.reg .crcLen = 0#32) : s.crcLenCount = 0 := by
  rw [crcLenCount_eq, h]; rfl

theorem frmLenCount_of_reg_eq_zero (h : s.reg .frmLen = 0#32) : s.frmLenCount = 0 := by
  rw [frmLenCount_eq, h]; rfl

theorem rxCountCount_of_reg_eq_zero (h : s.reg .rxCount = 0#32) : s.rxCountCount = 0 := by
  rw [rxCountCount_eq, h]; rfl

theorem pixinCountCount_of_reg_eq_zero (h : s.reg .pixinCount = 0#32) : s.pixinCountCount = 0 := by
  rw [pixinCountCount_eq, h]; rfl

/-! ### CRC_BUF of no bytes -/

theorem State.setReg_eq_self (h : s.reg r = v) : s.setReg r v = s := by
  have hregs : s.regs.set r v = s.regs := Regs.ext_get fun q => by
    rw [Regs.get_set]
    split
    case isTrue hq => rw [hq]; exact h.symm
    case isFalse => rfl
  rw [State.setReg, hregs]

/-- Feeding no bytes keeps a CRC register whose upper half is 0, as it is in every sound state (10_state.md R22). -/
theorem exec_crcBuf_of_no_bytes (hlen : s.crcLenCount = 0) (hcrc : s.reg .crc = s.crcValue.setWidth 32)
    (hstatus : s.reg .status = 0#32) : exec .crcBuf s = .next s := by
  rw [exec_crcBuf_eq_fedCrc (hlen ▸ Nat.zero_le _), hlen]
  have hfed : s.setReg .crc ((crcFrom s.crcValue (s.bytesAt .payload 0 0)).setWidth 32) = s :=
    State.setReg_eq_self hcrc
  rw [fedCrc, hfed]
  exact congrArg Host.Outcome.next (State.setReg_eq_self hstatus)

/-! ### The frame of zeros -/

/-- A CRC of 0 stays 0 under zero bytes (41_crc.md R93). -/
theorem crc16_replicate_zero (n : Nat) : crc16 (List.replicate n 0#8) = 0#16 := by
  have hstep : crcStep 0#16 0#8 = 0#16 := crcStep_enteringByte 0#8
  induction n with
  | zero => rfl
  | succ n ih => rw [List.replicate_succ', crc16_concat, ih, hstep]

theorem frameBytes_of_zeros : frameBytes 0#8 0#16 [] = [0xA5#8, 0, 0, 0, 0, 0, 0, 0] := by
  have hcovered : frameCovered 0#8 0#16 [] = List.replicate 5 0#8 := by decide
  have hcrc : frameCrc 0#8 0#16 [] = 0#16 := by rw [frameCrc, hcovered, crc16_replicate_zero]
  rw [frameBytes, hcovered, hcrc]
  decide

theorem bytesAt_runFrmBuild_of_zeros (hcmd : s.reg .frmCmd = 0#32) (haddr : s.reg .frmAddr = 0#32)
    (hlen : s.frmLenCount = 0) : (runFrmBuild s).bytesAt .tx 0 8 = [0xA5#8, 0, 0, 0, 0, 0, 0, 0] := by
  have hcmdByte : s.frmCmdByte = 0#8 := by rw [State.frmCmdByte, hcmd]; rfl
  have haddrHalf : s.frmAddrHalf = 0#16 := by rw [State.frmAddrHalf, haddr]; rfl
  have hpayload : s.framePayload = [] := List.eq_nil_of_length_eq_zero (by rw [length_framePayload, hlen])
  have hframe := bytesAt_runFrmBuild (hlen.trans_le s.params.maxPayload.zero_le)
  rwa [hlen, hcmdByte, haddrHalf, hpayload, frameBytes_of_zeros] at hframe

/-! ### The two counts that are wrong -/

theorem runFrmParse_of_no_bytes (h : s.rxCountCount = 0) : runFrmParse s = raiseError .malformedFrame s :=
  runFrmParse_of_malformed (by omega) (.inl (by omega))

theorem runPixBuf_of_no_bytes (hpixels : 1 ≤ s.params.pixels) (h : s.pixinCountCount = 0) (ord : PixelOrder)
    (ifmt : InputFormat) : runPixBuf ord ifmt s = raiseError .byteCount s := by
  have hbpp : 0 < bytesPerPixel ifmt := by cases ifmt <;> decide
  exact runPixBuf_of_wrong_count (h ▸ (Nat.mul_pos hpixels hbpp).ne)

end

/-- Settles O54: every operand is 0, and each command's own rule for that says what it does. -/
theorem commandsRightAfterReset : Obligations.CommandsRightAfterReset := by
  rintro s ⟨-, -, hpixels, -⟩ hzero
  have hcrc : s.reg .crc = s.crcValue.setWidth 32 := by rw [State.crcValue, hzero]; rfl
  have hlen := frmLenCount_of_reg_eq_zero (hzero .frmLen)
  have hfits : s.frmLenCount ≤ s.params.maxPayload := hlen.trans_le (Nat.zero_le _)
  refine ⟨exec_crcBuf_of_no_bytes (crcLenCount_of_reg_eq_zero (hzero .crcLen)) hcrc (hzero .status),
    ⟨_, exec_frmBuild s, bytesAt_runFrmBuild_of_zeros (hzero .frmCmd) (hzero .frmAddr) hlen, ?_, ?_⟩, ?_,
    fun ord ifmt => ?_⟩
  · rw [txCount_runFrmBuild hfits, hlen]
  · rw [runFrmBuild_of_fits hfits, err_succeed]
  · rw [exec_frmParse, runFrmParse_of_no_bytes (rxCountCount_of_reg_eq_zero (hzero .rxCount))]
    rfl
  · rw [exec_pixBuf, runPixBuf_of_no_bytes hpixels (pixinCountCount_of_reg_eq_zero (hzero .pixinCount))]
    rfl

end Sys2Proof.Machine
end
